-- ==== Sys2Proof/Word.lean ====
section
/-! DEFINITION. The word types of the machine (spec 00_scope.md R6, 10_state.md R10 to R20): plain data, no behaviour. -/

namespace Sys2Proof

/-- An 8-bit value: a general register, a timer, a memory cell, a `kk` operand (R10, R17, R40). -/
abbrev Byte := BitVec 8

/-- A 16-bit value: `PC`, `I`, a return address, an opcode (R13, R15, R16, R60). -/
abbrev Word := BitVec 16

/-- The 12-bit address operand `nnn` (R61, R63). -/
abbrev Addr12 := BitVec 12

/-- The number of a general register, `V[0]` to `V[15]`; also the number of a key (R10, R20). -/
abbrev Reg := Fin 16

/-- The display: 32 rows of 64 one-bit cells, the cell `Disp[px, py]` being bit `px` of row `py` (R19). -/
abbrev Display := Vector (BitVec 64) 32

/-- The 80 bytes of glyphs that the parameter `FONT` holds (R7, R53). -/
abbrev Font := Vector Byte 80

/-- VF, the flag register, is `V[15]` (R11). -/
abbrev vf : Reg := 15

end Sys2Proof
end

