-- ==== Sys2Proof/Config.lean ====
section
/-! DEFINITION. What the spec leaves to the implementation: the parameter `FONT` with its default, and the draw `rnd` (00_scope.md R7). The sizes that R6 fixes stand here too, under the spec's names. -/

namespace Sys2Proof.Config

/-- `MEM_SIZE` (R6): 4096 cells, addresses 0x000 to 0xFFF. -/
def memSize : Nat := 0x1000

/-- `PROG_BASE` (R6): where LOAD_PROGRAM puts the program. -/
def progBase : Nat := 0x200

/-- `PROG_MAX` (R6): the longest program, 4096 - 0x200 bytes. -/
def progMax : Nat := 0xE00

/-- The glyphs of the digits 0 to 7, one row a digit (R53). -/
def fontLow : List Byte :=
  [0xF0, 0x90, 0x90, 0x90, 0xF0] ++ [0x20, 0x60, 0x20, 0x20, 0x70] ++
  [0xF0, 0x10, 0xF0, 0x80, 0xF0] ++ [0xF0, 0x10, 0xF0, 0x10, 0xF0] ++
  [0x90, 0x90, 0xF0, 0x10, 0x10] ++ [0xF0, 0x80, 0xF0, 0x10, 0xF0] ++
  [0xF0, 0x80, 0xF0, 0x90, 0xF0] ++ [0xF0, 0x10, 0x20, 0x40, 0x40]

/-- The glyphs of the digits 8 to F, one row a digit (R53). -/
def fontHigh : List Byte :=
  [0xF0, 0x90, 0xF0, 0x90, 0xF0] ++ [0xF0, 0x90, 0xF0, 0x10, 0xF0] ++
  [0xF0, 0x90, 0xF0, 0x90, 0x90] ++ [0xE0, 0x90, 0xE0, 0x90, 0xE0] ++
  [0xF0, 0x80, 0x80, 0x80, 0xF0] ++ [0xE0, 0x90, 0x90, 0x90, 0xE0] ++
  [0xF0, 0x80, 0xF0, 0x80, 0xF0] ++ [0xF0, 0x80, 0xF0, 0x80, 0x80]

/-- The default of the parameter `FONT` (R53). PRESUMED, unsafe (log entry 3): the spec itself marks the
table as general knowledge. `Sys2Proof.Machine.opInitialize` takes any other `FONT`. -/
def font : Font := ⟨⟨fontLow ++ fontHigh⟩, rfl⟩

/-- The byte that `RND` draws, a free value: draw number `k` (R88, D11). No body, so nothing can be proved
of it and no two draws are related. Log entry 1, safe. -/
opaque rnd : Nat → Byte

end Sys2Proof.Config
end

