-- ==== Sys2Proof/Syntax.lean ====
section
/-! DEFINITION. The 35 instructions (30_encoding.md R66), one constructor for each row of spec/opcode_table.json, in the table's order. -/

namespace Sys2Proof

/-- An instruction with its operands. `x`, `y` are register numbers, `kk` a byte, `nnn` an address, `n` a
number of sprite rows (R61, R63). The nibble that four rows ignore (R67) is no operand. -/
inductive Instr where
  /-- `SYS nnn` (R90) -/
  | sys (nnn : Addr12)
  /-- `CLS` (R130) -/
  | cls
  /-- `RET` (R91) -/
  | ret
  /-- `JP nnn` (R92) -/
  | jp (nnn : Addr12)
  /-- `CALL nnn` (R93) -/
  | call (nnn : Addr12)
  /-- `SE Vx,kk` (R95) -/
  | seImm (x : Reg) (kk : Byte)
  /-- `SNE Vx,kk` (R96) -/
  | sneImm (x : Reg) (kk : Byte)
  /-- `SE Vx,Vy` (R97) -/
  | seReg (x y : Reg)
  /-- `LD Vx,kk` (R100) -/
  | ldImm (x : Reg) (kk : Byte)
  /-- `ADD Vx,kk` (R101) -/
  | addImm (x : Reg) (kk : Byte)
  /-- `LD Vx,Vy` (R102) -/
  | ldReg (x y : Reg)
  /-- `OR Vx,Vy` (R103) -/
  | orReg (x y : Reg)
  /-- `AND Vx,Vy` (R104) -/
  | andReg (x y : Reg)
  /-- `XOR Vx,Vy` (R105) -/
  | xorReg (x y : Reg)
  /-- `ADD Vx,Vy` (R106) -/
  | addReg (x y : Reg)
  /-- `SUB Vx,Vy` (R107) -/
  | sub (x y : Reg)
  /-- `SHR Vx` (R108) -/
  | shr (x : Reg)
  /-- `SUBN Vx,Vy` (R109) -/
  | subn (x y : Reg)
  /-- `SHL Vx` (R110) -/
  | shl (x : Reg)
  /-- `SNE Vx,Vy` (R98) -/
  | sneReg (x y : Reg)
  /-- `LD I,nnn` (R120) -/
  | ldI (nnn : Addr12)
  /-- `JP V0,nnn` (R94) -/
  | jpV0 (nnn : Addr12)
  /-- `RND Vx,kk` (R111) -/
  | rnd (x : Reg) (kk : Byte)
  /-- `DRW Vx,Vy,n` (R131) -/
  | drw (x y : Reg) (n : Fin 16)
  /-- `SKP Vx` (R140) -/
  | skp (x : Reg)
  /-- `SKNP Vx` (R141) -/
  | sknp (x : Reg)
  /-- `LD Vx,DT` (R142) -/
  | ldVxDt (x : Reg)
  /-- `LD Vx,K` (R143) -/
  | ldVxK (x : Reg)
  /-- `LD DT,Vx` (R144) -/
  | ldDtVx (x : Reg)
  /-- `LD ST,Vx` (R145) -/
  | ldStVx (x : Reg)
  /-- `ADD I,Vx` (R121) -/
  | addI (x : Reg)
  /-- `LD F,Vx` (R122) -/
  | ldF (x : Reg)
  /-- `LD B,Vx` (R123) -/
  | ldB (x : Reg)
  /-- `LD [I],Vx` (R124) -/
  | ldMemVx (x : Reg)
  /-- `LD Vx,[I]` (R125) -/
  | ldVxMem (x : Reg)
  deriving DecidableEq, Repr

/-- Why a decoder rejects its input. -/
inductive Reject where
  /-- The opcode matches no row of the opcode map (R68). -/
  | unknownOpcode (code : Word)
  /-- Fewer than the two bytes that every instruction has (R60). No STEP meets it: a fetch is two bytes. -/
  | truncated
  deriving DecidableEq, Repr

end Sys2Proof
end

