-- ==== Sys2Proof/Decode.lean ====
section
/-! DEFINITION. The decoder (30_encoding.md R61, R65, R66, R68), total on every word and every list of bytes, and the encoder beside it. The numbers of the map are the spec's, which marks most of them as general knowledge (log entry 11). -/

namespace Sys2Proof

/-- `p = op[15:12]` (R61). -/
def opP (op : Word) : BitVec 4 := op.extractLsb' 12 4

/-- `x = op[11:8]` (R61). -/
def opX (op : Word) : Reg := (op.extractLsb' 8 4).toFin

/-- `y = op[7:4]` (R61). -/
def opY (op : Word) : Reg := (op.extractLsb' 4 4).toFin

/-- `n = op[3:0]`, also `s1`, the secondary code of family 8 (R61). -/
def opN (op : Word) : Fin 16 := (op.extractLsb' 0 4).toFin

/-- `kk = op[7:0]`, also `s2`, the secondary code of families E and F (R61). -/
def opKk (op : Word) : Byte := op.extractLsb' 0 8

/-- `nnn = op[11:0]` (R61). -/
def opNnn (op : Word) : Addr12 := op.extractLsb' 0 12

/-- Family 0: two whole words, and SYS for every other (R65, R69). -/
def decode0 (op : Word) : Except Reject Instr :=
  if op = 0x00E0 then .ok .cls
  else if op = 0x00EE then .ok .ret
  else .ok (.sys (opNnn op))

/-- Family 8: `s1` selects among nine, the other seven codes are unknown (R65, R68). Rows `8x-6` and `8x-E`
ignore the `y` nibble (R67). -/
def decode8 (op : Word) : Except Reject Instr :=
  match (opN op).val with
  | 0x0 => .ok (.ldReg (opX op) (opY op))
  | 0x1 => .ok (.orReg (opX op) (opY op))
  | 0x2 => .ok (.andReg (opX op) (opY op))
  | 0x3 => .ok (.xorReg (opX op) (opY op))
  | 0x4 => .ok (.addReg (opX op) (opY op))
  | 0x5 => .ok (.sub (opX op) (opY op))
  | 0x6 => .ok (.shr (opX op))
  | 0x7 => .ok (.subn (opX op) (opY op))
  | 0xE => .ok (.shl (opX op))
  | _ => .error (.unknownOpcode op)

/-- Family E: `s2` selects among two (R65, R68). -/
def decodeE (op : Word) : Except Reject Instr :=
  match (opKk op).toNat with
  | 0x9E => .ok (.skp (opX op))
  | 0xA1 => .ok (.sknp (opX op))
  | _ => .error (.unknownOpcode op)

/-- Family F: `s2` selects among nine (R65, R68). -/
def decodeF (op : Word) : Except Reject Instr :=
  match (opKk op).toNat with
  | 0x07 => .ok (.ldVxDt (opX op))
  | 0x0A => .ok (.ldVxK (opX op))
  | 0x15 => .ok (.ldDtVx (opX op))
  | 0x18 => .ok (.ldStVx (opX op))
  | 0x1E => .ok (.addI (opX op))
  | 0x29 => .ok (.ldF (opX op))
  | 0x33 => .ok (.ldB (opX op))
  | 0x55 => .ok (.ldMemVx (opX op))
  | 0x65 => .ok (.ldVxMem (opX op))
  | _ => .error (.unknownOpcode op)

/-- The decode function (R65): the primary nibble first, then the secondary code of families 0, 8, E and F.
It depends on the opcode alone. Families 5 and 9 ignore the low nibble (R67; log entry 12). -/
def decode (op : Word) : Except Reject Instr :=
  match (opP op).toNat with
  | 0x0 => decode0 op
  | 0x1 => .ok (.jp (opNnn op))
  | 0x2 => .ok (.call (opNnn op))
  | 0x3 => .ok (.seImm (opX op) (opKk op))
  | 0x4 => .ok (.sneImm (opX op) (opKk op))
  | 0x5 => .ok (.seReg (opX op) (opY op))
  | 0x6 => .ok (.ldImm (opX op) (opKk op))
  | 0x7 => .ok (.addImm (opX op) (opKk op))
  | 0x8 => decode8 op
  | 0x9 => .ok (.sneReg (opX op) (opY op))
  | 0xA => .ok (.ldI (opNnn op))
  | 0xB => .ok (.jpV0 (opNnn op))
  | 0xC => .ok (.rnd (opX op) (opKk op))
  | 0xD => .ok (.drw (opX op) (opY op) (opN op))
  | 0xE => decodeE op
  | 0xF => decodeF op
  | _ => .error (.unknownOpcode op)

/-- Two bytes make an opcode, the first one its high byte (R45, R60). -/
def composeWord (hi lo : Byte) : Word := hi ++ lo

/-- The byte of an opcode that stands at the lower address (R45). -/
def highByte (op : Word) : Byte := op.extractLsb' 8 8

/-- The byte of an opcode that stands at the higher address (R45). -/
def lowByte (op : Word) : Byte := op.extractLsb' 0 8

/-- Decode the instruction at the head of a list of bytes and give the rest of the list. -/
def decodeBytes : List Byte → Except Reject (Instr × List Byte)
  | hi :: lo :: rest =>
    match decode (composeWord hi lo) with
    | .ok i => .ok (i, rest)
    | .error e => .error e
  | [_] => .error .truncated
  | [] => .error .truncated

/-- A register number as the nibble that stands in an opcode. -/
def regBits (x : Fin 16) : BitVec 4 := BitVec.ofFin x

/-- Format NNN (R62). -/
def packNnn (p : BitVec 4) (nnn : Addr12) : Word := p ++ nnn

/-- Formats XKK and X (R62). -/
def packXkk (p : BitVec 4) (x : Reg) (kk : Byte) : Word := p ++ regBits x ++ kk

/-- Formats XY and XYN (R62). -/
def packXyn (p : BitVec 4) (x y : Reg) (n : Fin 16) : Word := p ++ regBits x ++ regBits y ++ regBits n

/-- The word of a well-formed instruction, from the patterns of R66; an ignored nibble is 0 (R67). -/
def encode : Instr → Word
  | .sys nnn => packNnn 0x0 nnn
  | .cls => 0x00E0
  | .ret => 0x00EE
  | .jp nnn => packNnn 0x1 nnn
  | .call nnn => packNnn 0x2 nnn
  | .seImm x kk => packXkk 0x3 x kk
  | .sneImm x kk => packXkk 0x4 x kk
  | .seReg x y => packXyn 0x5 x y 0x0
  | .ldImm x kk => packXkk 0x6 x kk
  | .addImm x kk => packXkk 0x7 x kk
  | .ldReg x y => packXyn 0x8 x y 0x0
  | .orReg x y => packXyn 0x8 x y 0x1
  | .andReg x y => packXyn 0x8 x y 0x2
  | .xorReg x y => packXyn 0x8 x y 0x3
  | .addReg x y => packXyn 0x8 x y 0x4
  | .sub x y => packXyn 0x8 x y 0x5
  | .shr x => packXyn 0x8 x 0 0x6
  | .subn x y => packXyn 0x8 x y 0x7
  | .shl x => packXyn 0x8 x 0 0xE
  | .sneReg x y => packXyn 0x9 x y 0x0
  | .ldI nnn => packNnn 0xA nnn
  | .jpV0 nnn => packNnn 0xB nnn
  | .rnd x kk => packXkk 0xC x kk
  | .drw x y n => packXyn 0xD x y n
  | .skp x => packXkk 0xE x 0x9E
  | .sknp x => packXkk 0xE x 0xA1
  | .ldVxDt x => packXkk 0xF x 0x07
  | .ldVxK x => packXkk 0xF x 0x0A
  | .ldDtVx x => packXkk 0xF x 0x15
  | .ldStVx x => packXkk 0xF x 0x18
  | .addI x => packXkk 0xF x 0x1E
  | .ldF x => packXkk 0xF x 0x29
  | .ldB x => packXkk 0xF x 0x33
  | .ldMemVx x => packXkk 0xF x 0x55
  | .ldVxMem x => packXkk 0xF x 0x65

/-- The two bytes of an instruction as memory holds them, high byte first (R45, R60). -/
def encodeBytes (i : Instr) : List Byte := [highByte (encode i), lowByte (encode i)]

/-- The opcode whose bits are `w` as spec/opcode_table.json numbers them, the bits from `nbits` up being 0. -/
def tableWord (nbits w : Nat) : Word := BitVec.ofNat 16 (w % 2 ^ nbits)

/-- What the decoder reads from the bytes of a word of spec/opcode_table.json. -/
def decodeTableWord (nbits w : Nat) : Option Instr :=
  match decodeBytes [highByte (tableWord nbits w), lowByte (tableWord nbits w)] with
  | .ok (i, _) => some i
  | .error _ => none

end Sys2Proof
end

