-- ==== Sys2Proof/Machine/State.lean ====
section
/-! DEFINITION. The whole state of the machine (10_state.md R10 to R22), the reasons a STEP can stop (60_exceptions.md R160), and the state after INITIALIZE (R25). -/

namespace Sys2Proof.Machine

/-- `Mem` (R21, R40): address and byte pairs in one canonical form, addresses strictly rising, no byte equal to
what an unlisted address reads as (`Memory.wf` in Ops.lean). -/
abbrev Memory := List Host.Cell

/-- The state. Every field but `draws` is the spec's (R22: these are the whole state). -/
structure State where
  /-- `V[0..15]` (R10); `V[15]` is VF (R11) -/
  v : Vector Byte 16
  /-- `PC` (R13) -/
  pc : Word
  /-- `I` (R15) -/
  i : Word
  /-- `Stack[0..15]` (R16); the entries at `SP` and above are not architectural -/
  stack : Vector Word 16
  /-- `SP`, the number of stack entries in use, 0 to 16 (R16) -/
  sp : Fin 17
  /-- `Disp` (R19): cell `Disp[px, py]` is bit `px` of row `py` -/
  disp : Display
  /-- `DT`, the delay timer (R17) -/
  dt : Byte
  /-- `ST`, the sound timer (R18) -/
  st : Byte
  /-- `Key[0..15]`, true when pressed (R20) -/
  key : Vector Bool 16
  /-- `Mem` (R21) -/
  mem : Memory
  /-- The MODEL's own field, not the spec's: how many bytes `RND` has drawn, so that each draw is a fresh free
  value `Config.rnd draws` (R88; log entry 1) -/
  draws : Nat
  deriving DecidableEq, Repr

/-- The error kinds (R160). The source calls them failures of a host operation: the operation returns the error
to the host and changes nothing (R169). All are errors the spec itself names, so no stop here is the model's own. -/
inductive Fault where
  /-- `UnknownOpcode(code)`: raised by STEP when the opcode fetched matches no instruction (R161). Safe. -/
  | unknownOpcode (code : Word)
  /-- `StackOverflow`: raised by `CALL` with 16 entries in use (R162). Safe. -/
  | stackOverflow
  /-- `StackUnderflow`: raised by `RET` with no entry in use (R163). Safe. -/
  | stackUnderflow
  /-- `ProgramTooLarge`: raised by LOAD_PROGRAM, never by a STEP (R164). Safe. -/
  | programTooLarge
  /-- `AddressFault(a)`: raised by the fetch, `DRW`, `LD B`, `LD [I]`, `LD Vx,[I]` when a byte of the access lies
  above 0xFFF; `a` is the lowest such address (R165). The spec's own choice (D6). Safe. -/
  | addressFault (a : Nat)
  /-- `KeyIndexFault(k)`: raised by `SKP`, `SKNP` when `V[x] > 15` (R166). The spec's own choice (D8). Safe. -/
  | keyIndexFault (k : Byte)
  deriving DecidableEq, Repr

/-- Why the model gives no meaning. -/
inductive Refusal where
  /-- Raised by an arm of `exec` whose instruction has no meaning yet. No arm raises it. Safe. -/
  | notModelled (mnemonic : String)
  /-- Raised by a host operation other than INITIALIZE before the first INITIALIZE, where every piece of state is
  unspecified (R181, D18). No STEP of `step` raises it. Safe. -/
  | beforeInitialize
  deriving DecidableEq, Repr

/-- The outcome of one STEP. -/
abbrev Result := Host.Outcome State Fault Refusal

/-- The state after INITIALIZE (R25, R180): memory lists nothing, since an unlisted address reads as what
INITIALIZE puts there. -/
def State.reset : State where
  v := Vector.replicate 16 0
  pc := 0x0200
  i := 0x0000
  stack := Vector.replicate 16 0
  sp := 0
  disp := Vector.replicate 32 0
  dt := 0
  st := 0
  key := Vector.replicate 16 false
  mem := []
  draws := 0

end Sys2Proof.Machine
end

