-- ==== Sys2Proof/Machine/Ops.lean ====
section
/-! DEFINITION. The shared operations over memory, registers, the call stack and the program counter, and raising an error. Every meaning is written over these. -/

namespace Sys2Proof.Machine

/-! ### Memory (20_memory.md R40 to R47) -/

/-- What an address that memory does not list reads as: what INITIALIZE puts there, `FONT` at 0x000 to 0x04F and
0x00 above (R25, R42; log entries 3 and 4). -/
def Memory.unlisted (a : Nat) : Byte := if h : a < 80 then Config.font[a] else 0

/-- The byte at an address (R47: the value last written there). -/
def Memory.read : Memory → Nat → Byte
  | [], a => Memory.unlisted a
  | (k, b) :: m, a => if k = a then b else Memory.read m a

/-- Write the byte at an address, keeping the canonical form. -/
def Memory.write : Memory → Nat → Byte → Memory
  | [], a, b => if b = Memory.unlisted a then [] else [(a, b)]
  | (k, c) :: m, a, b =>
    if a < k then (if b = Memory.unlisted a then (k, c) :: m else (a, b) :: (k, c) :: m)
    else if a = k then (if b = Memory.unlisted a then m else (a, b) :: m)
    else (k, c) :: Memory.write m a b

/-- The canonical form from address `lo` up: addresses strictly rising and inside memory, no byte equal to what
the address reads as when it is not listed. -/
def Memory.wfFrom : Nat → Memory → Bool
  | _, [] => true
  | lo, (k, b) :: m =>
    decide (lo ≤ k) && decide (k < Config.memSize) && decide (b ≠ Memory.unlisted k) && Memory.wfFrom (k + 1) m

/-- The canonical form. -/
def Memory.wf (m : Memory) : Bool := Memory.wfFrom 0 m

/-- `MemRead(base, n)` without its bounds check: the `n` bytes from `base` up, lowest address first (00_scope.md
section 6). Byte `k` is at `base + k`, on unbounded integers (R44). -/
def Memory.readBlock (m : Memory) : Nat → Nat → List Byte
  | _, 0 => []
  | base, n + 1 => Memory.read m base :: Memory.readBlock m (base + 1) n

/-- `MemWrite(base, n, bs)` without its bounds check (00_scope.md section 6). -/
def Memory.writeBlock : Memory → Nat → List Byte → Memory
  | m, _, [] => m
  | m, base, b :: bs => Memory.writeBlock (Memory.write m base b) (base + 1) bs

/-! ### Errors (60_exceptions.md R160, R169) -/

/-- Raise an error (R169): the host operation ends with the error, the state being the state before it. No handler
runs, nothing is saved, no return instruction exists (R170), so the outcome carries the error alone and whoever
holds the state keeps it (`Sys2Proof.Machine.HostOp.apply`). Log entry 5. -/
def raise (e : Fault) : Result := .fault e

/-- The numeric code of an error (R160, R167); 0 is `ok`. -/
def Fault.code : Fault → Nat
  | .unknownOpcode _ => 1
  | .stackOverflow => 2
  | .stackUnderflow => 3
  | .programTooLarge => 4
  | .addressFault _ => 5
  | .keyIndexFault _ => 6

/-- The bounds check of every access to `Mem` (R43, R165): if one of the `n` bytes from `base` up lies above 0xFFF
the operation raises `AddressFault` with the lowest such address, before anything is written; an access of no
bytes cannot fault (R44). -/
def checkAccess (base n : Nat) (ok : Result) : Result :=
  if n ≠ 0 ∧ Config.memSize < base + n then raise (.addressFault (max base Config.memSize)) else ok

/-! ### Registers -/

/-- Read `V[x]` (R10). -/
def State.reg (s : State) (x : Reg) : Byte := s.v[x]

/-- Write `V[x]` (R10). -/
def State.setReg (s : State) (x : Reg) (b : Byte) : State := { s with v := s.v.set x b }

/-- Load registers from number `k` up with the bytes of a list, in order (R125). -/
def loadRegs (v : Vector Byte 16) : Nat → List Byte → Vector Byte 16
  | _, [] => v
  | k, b :: bs => loadRegs (v.setIfInBounds k b) (k + 1) bs

/-- Write `I` (R15). -/
def State.setI (s : State) (a : Word) : State := { s with i := a }

/-- Write `DT` (R17). -/
def State.setDt (s : State) (b : Byte) : State := { s with dt := b }

/-- Write `ST` (R18). -/
def State.setSt (s : State) (b : Byte) : State := { s with st := b }

/-- Replace the display (R19). -/
def State.setDisp (s : State) (d : Display) : State := { s with disp := d }

/-- Replace the memory (R21). -/
def State.setMem (s : State) (m : Memory) : State := { s with mem := m }

/-- Replace all the general registers (R125). -/
def State.setRegs (s : State) (v : Vector Byte 16) : State := { s with v := v }

/-- The byte at an address of `Mem`. -/
def State.byteAt (s : State) (a : Nat) : Byte := s.mem.read a

/-! ### The program counter (40_step_cycle.md R83) -/

/-- `PC <- target`. -/
def State.jump (s : State) (target : Word) : State := { s with pc := target }

/-- `PC <- (PC + 2) mod 65536`: the default advance. -/
def State.next (s : State) : State := s.jump (s.pc + 2)

/-- `PC <- (PC + 4) mod 65536`: a skip, which examines nothing of the two bytes it passes (R84). -/
def State.skip (s : State) : State := s.jump (s.pc + 4)

/-- Skip if the condition holds, else advance. -/
def State.skipIf (s : State) (c : Bool) : State := if c then s.skip else s.next

/-! ### The call stack (10_state.md R16) -/

/-- `Stack[SP] <- a; SP <- SP + 1`, or `StackOverflow` when 16 entries are in use (R93). -/
def State.push (s : State) (a : Word) (ok : State → Result) : Result :=
  if h : s.sp.val < 16 then
    ok { s with stack := s.stack.set s.sp.val a, sp := ⟨s.sp.val + 1, by omega⟩ }
  else raise .stackOverflow

/-- `SP <- SP - 1`, then the entry `Stack[SP]`, or `StackUnderflow` when no entry is in use (R91). The entry keeps
its value in its slot, which is no longer in use (log entry 15). -/
def State.pop (s : State) (ok : Word → State → Result) : Result :=
  if h : 0 < s.sp.val then
    ok (s.stack[s.sp.val - 1]'(by omega)) { s with sp := ⟨s.sp.val - 1, by omega⟩ }
  else raise .stackUnderflow

/-! ### Fetch (40_step_cycle.md R81) -/

/-- The two bytes at `PC` and `PC + 1`, big-endian (R45, R81); `PC` may be odd (R46). -/
def State.fetchWord (s : State) : Word :=
  composeWord (s.mem.read s.pc.toNat) (s.mem.read (s.pc.toNat + 1))

/-- Fetch: the bounds check, then the opcode; `PC` does not change (R81). -/
def State.fetch (s : State) (run : Word → Result) : Result :=
  checkAccess s.pc.toNat 2 (run s.fetchWord)

end Sys2Proof.Machine
end

