-- ==== Sys2Proof/Machine/Operands.lean ====
section
/-! DEFINITION. The operand forms (30_encoding.md R63): immediates zero-extended, registers read in full, the key number a register holds, the blocks that move through `I`, and the coordinates of a sprite. -/

namespace Sys2Proof.Machine

/-- `zext_16` of a byte. -/
def zextByte (b : Byte) : Word := b.setWidth 16

/-- `zext_16` of an address operand (R63: the top four bits become 0). -/
def zextAddr (nnn : Addr12) : Word := nnn.setWidth 16

/-- The base address of a data access, `I` (44_index_memory.md). -/
def State.base (s : State) : Nat := s.i.toNat

/-- The address of the glyph of a digit, `5 * v`, for every value of the register, unmasked (R122). -/
def glyphAddr (v : Byte) : Word := 5 * zextByte v

/-- The decimal digits of a byte: hundreds, tens, ones (R123). -/
def decimalDigits (v : Byte) : List Byte :=
  [BitVec.ofNat 8 (v.toNat / 100), BitVec.ofNat 8 (v.toNat / 10 % 10), BitVec.ofNat 8 (v.toNat % 10)]

/-- The registers `V[0]` to `V[x]`, in order (R124). -/
def State.regsUpTo (s : State) (x : Reg) : List Byte := s.v.toList.take (x.val + 1)

/-- Whether the key is pressed (R20). -/
def State.pressed (s : State) (k : Reg) : Bool := s.key[k]

/-- The key that a register's value names, or `KeyIndexFault` when the value is above 15 (R140, R141, R166). -/
def withKey (v : Byte) (ok : Reg → Result) : Result :=
  if h : v.toNat < 16 then ok ⟨v.toNat, h⟩ else raise (.keyIndexFault v)

/-- The least pressed key, none when every key is up (R143). -/
def State.leastKey (s : State) : Option Reg := (List.finRange 16).find? s.pressed

/-- The number of a key as a register holds it. -/
def keyByte (k : Reg) : Byte := BitVec.ofNat 8 k.val

/-- The column of a sprite's left edge, `V[x] mod 64` (R131). -/
def State.column (s : State) (x : Reg) : Fin 64 := Fin.ofNat 64 (s.reg x).toNat

/-- The row of a sprite's top edge, `V[y] mod 32` (R131). -/
def State.row (s : State) (y : Reg) : Fin 32 := Fin.ofNat 32 (s.reg y).toNat

end Sys2Proof.Machine
end

