-- ==== Sys2Proof/Machine/Flags.lean ====
section
/-! DEFINITION. The flag computations and the flag write (10_state.md R11, R12; 43_alu.md R112, R113). Six instructions write VF as a flag, always with 0 or 1. -/

namespace Sys2Proof.Machine

/-- A flag as VF holds it: 1 or 0 (R11). -/
def flagByte (c : Bool) : Byte := if c then 1 else 0

/-- Carry: the true sum is above 255 (R106, R112). -/
def carry (a b : Byte) : Byte := flagByte (decide (255 < a.toNat + b.toNat))

/-- No borrow of `a - b`: `a >= b`, equality included (R107, R109, R112). -/
def noBorrow (a b : Byte) : Byte := flagByte (decide (b.toNat ≤ a.toNat))

/-- The bit that a right shift by one shifts out: bit 0 of the operand (R108). -/
def shiftedOutRight (a : Byte) : Byte := flagByte (a.getLsbD 0)

/-- The bit that a left shift by one shifts out: bit 7 of the operand (R110). -/
def shiftedOutLeft (a : Byte) : Byte := flagByte (a.getLsbD 7)

/-- Write the flag to VF. -/
def State.setFlag (s : State) (f : Byte) : State := s.setReg vf f

/-- Write a result to `V[x]` and then, last, its flag to VF; with `x = 15` the flag wins (R12, R113). The result
and the flag are values computed before, from the registers as they were. -/
def State.setResultFlag (s : State) (x : Reg) (r f : Byte) : State := (s.setReg x r).setFlag f

end Sys2Proof.Machine
end

