-- ==== Sys2Proof/Machine/Alu.lean ====
section
/-! DEFINITION. Register loads, arithmetic, logic, shifts and random (43_alu.md R100 to R113). None can raise an error. -/

namespace Sys2Proof.Machine

/-- `LD Vx,kk` (R100). -/
def execLdImm (x : Reg) (kk : Byte) (s : State) : Result := .next (s.setReg x kk).next

/-- `ADD Vx,kk`: no flag effect (R101). -/
def execAddImm (x : Reg) (kk : Byte) (s : State) : Result := .next (s.setReg x (s.reg x + kk)).next

/-- `LD Vx,Vy` (R102). -/
def execLdReg (x y : Reg) (s : State) : Result := .next (s.setReg x (s.reg y)).next

/-- `OR Vx,Vy`: no flag effect (R103). -/
def execOrReg (x y : Reg) (s : State) : Result := .next (s.setReg x (s.reg x ||| s.reg y)).next

/-- `AND Vx,Vy`: no flag effect (R104). -/
def execAndReg (x y : Reg) (s : State) : Result := .next (s.setReg x (s.reg x &&& s.reg y)).next

/-- `XOR Vx,Vy`: no flag effect (R105). -/
def execXorReg (x y : Reg) (s : State) : Result := .next (s.setReg x (s.reg x ^^^ s.reg y)).next

/-- `ADD Vx,Vy`: VF = carry (R106). -/
def execAddReg (x y : Reg) (s : State) : Result :=
  .next (s.setResultFlag x (s.reg x + s.reg y) (carry (s.reg x) (s.reg y))).next

/-- `SUB Vx,Vy`: `V[x] - V[y]`; VF = no borrow (R107). -/
def execSub (x y : Reg) (s : State) : Result :=
  .next (s.setResultFlag x (s.reg x - s.reg y) (noBorrow (s.reg x) (s.reg y))).next

/-- `SHR Vx`: VF = the bit shifted out; `V[y]` plays no part (R108). -/
def execShr (x : Reg) (s : State) : Result :=
  .next (s.setResultFlag x (s.reg x >>> 1) (shiftedOutRight (s.reg x))).next

/-- `SUBN Vx,Vy`: `V[y] - V[x]` to `V[x]`; VF = no borrow (R109). -/
def execSubn (x y : Reg) (s : State) : Result :=
  .next (s.setResultFlag x (s.reg y - s.reg x) (noBorrow (s.reg y) (s.reg x))).next

/-- `SHL Vx`: VF = the bit shifted out; `V[y]` plays no part (R110). -/
def execShl (x : Reg) (s : State) : Result :=
  .next (s.setResultFlag x (s.reg x <<< 1) (shiftedOutLeft (s.reg x))).next

/-- `RND Vx,kk` on the draw `rnd`: the byte masked by `kk` (R111). The model counts the draw. -/
def execRndOn (rnd : Byte) (x : Reg) (kk : Byte) (s : State) : Result :=
  .next { (s.setReg x (rnd &&& kk)).next with draws := s.draws + 1 }

/-- `RND Vx,kk`: the draw is the next free value (R88, R111; log entry 1). -/
def execRnd (x : Reg) (kk : Byte) (s : State) : Result := execRndOn (Config.rnd s.draws) x kk s

end Sys2Proof.Machine
end

