-- ==== Sys2Proof/Machine/Display.lean ====
section
/-! DEFINITION. The display interface and the sprite collision detector (45_display.md R130 to R134): `CLS`, `DRW`. Columns are numbers mod 64 and rows numbers mod 32, so every sum of a coordinate wraps as R131 says. -/

namespace Sys2Proof.Machine

/-- The cell `Disp[px, py]`: true when it is 1 (R19). -/
def cell (d : Display) (px : Fin 64) (py : Fin 32) : Bool := d[py].getLsbD px.val

/-- Invert the cell `Disp[px, py]`. -/
def flipCell (d : Display) (px : Fin 64) (py : Fin 32) : Display := d.set py.val (d[py] ^^^ BitVec.twoPow 64 px.val)

/-- One pixel of a sprite on the display and the collision so far (R131): a 1 bit inverts its cell and collides
with a cell that held 1; a 0 bit leaves everything alone. -/
def drawPixel (bit : Bool) (px : Fin 64) (py : Fin 32) (acc : Display × Bool) : Display × Bool :=
  if bit then (flipCell acc.1 px py, acc.2 || cell acc.1 px py) else acc

/-- One row of a sprite, its pixel columns 0 to 7 from left to right: bit `7 - c` is pixel `c`, and the column wraps
at 64 (R131, R132; log entry 13). -/
def drawRow (b : Byte) (x0 : Fin 64) (py : Fin 32) (acc : Display × Bool) : Display × Bool :=
  (List.range 8).foldl (fun a c => drawPixel (b.getLsbD (7 - c)) (x0 + Fin.ofNat 64 c) py a) acc

/-- The rows of a sprite from row `r` down; the row wraps at 32 (R131, R132). -/
def drawRows (x0 : Fin 64) (y0 : Fin 32) : Nat → List Byte → Display × Bool → Display × Bool
  | _, [], acc => acc
  | r, b :: bs, acc => drawRows x0 y0 (r + 1) bs (drawRow b x0 (y0 + Fin.ofNat 32 r) acc)

/-- The display and the collision after drawing the `n` bytes at `I` at (`V[x] mod 64`, `V[y] mod 32`) (R131). -/
def State.drawn (s : State) (x y : Reg) (n : Nat) : Display × Bool :=
  drawRows (s.column x) (s.row y) 0 (s.mem.readBlock s.base n) (s.disp, false)

/-- `CLS`: every cell 0; VF is unchanged (R130). -/
def execCls (s : State) : Result := .next (s.setDisp (Vector.replicate 32 0)).next

/-- `DRW Vx,Vy,n`: draws by exclusive or; VF = collision, written by every `DRW` (R131). -/
def execDrw (x y : Reg) (n : Fin 16) (s : State) : Result :=
  checkAccess s.base n.val
    (.next ((s.setDisp (s.drawn x y n.val).1).setFlag (flagByte (s.drawn x y n.val).2)).next)

end Sys2Proof.Machine
end

