-- ==== Sys2Proof/Machine/Flow.lean ====
section
/-! DEFINITION. Control transfer and the call stack (41_flow.md R90 to R94): `SYS`, `RET`, `JP`, `CALL`, `JP V0`. -/

namespace Sys2Proof.Machine

/-- `SYS nnn`: a no-op, whatever the operand (R90, R69). -/
def execSys (_nnn : Addr12) (s : State) : Result := .next s.next

/-- `RET`: `PC` becomes the popped address as it is (R91, R85). -/
def execRet (s : State) : Result := s.pop fun a t => .next (t.jump a)

/-- `JP nnn` (R92): any target is accepted. -/
def execJp (nnn : Addr12) (s : State) : Result := .next (s.jump (zextAddr nnn))

/-- `CALL nnn`: stacks the address after the call, then jumps (R93, R85). -/
def execCall (nnn : Addr12) (s : State) : Result := s.push (s.pc + 2) fun t => .next (t.jump (zextAddr nnn))

/-- `JP V0,nnn`: the register is always `V[0]`; the sum is not reduced to 12 bits (R94). -/
def execJpV0 (nnn : Addr12) (s : State) : Result := .next (s.jump (zextAddr nnn + zextByte (s.reg 0)))

end Sys2Proof.Machine
end

