-- ==== Sys2Proof/Machine/Index.lean ====
section
/-! DEFINITION. The index register and memory transfers (44_index_memory.md R120 to R126). No access changes `I` (R126). -/

namespace Sys2Proof.Machine

/-- `LD I,nnn` (R120). -/
def execLdI (nnn : Addr12) (s : State) : Result := .next (s.setI (zextAddr nnn)).next

/-- `ADD I,Vx`: wraps at 16 bits, no flag effect (R121). -/
def execAddI (x : Reg) (s : State) : Result := .next (s.setI (s.i + zextByte (s.reg x))).next

/-- `LD F,Vx`: `I <- 5 * V[x]`, for every value (R122; log entry 9). -/
def execLdF (x : Reg) (s : State) : Result := .next (s.setI (glyphAddr (s.reg x))).next

/-- Store bytes from `I` up, all or none (R43), and advance. -/
def State.storeAtI (s : State) (bs : List Byte) : Result :=
  checkAccess s.base bs.length (.next (s.setMem (s.mem.writeBlock s.base bs)).next)

/-- `LD B,Vx`: the three decimal digits of `V[x]` at `I`, `I + 1`, `I + 2` (R123). -/
def execLdB (x : Reg) (s : State) : Result := s.storeAtI (decimalDigits (s.reg x))

/-- `LD [I],Vx`: `V[0]` to `V[x]` at `I` to `I + x` (R124). -/
def execLdMemVx (x : Reg) (s : State) : Result := s.storeAtI (s.regsUpTo x)

/-- `LD Vx,[I]`: `V[0]` to `V[x]` from `I` to `I + x` (R125). -/
def execLdVxMem (x : Reg) (s : State) : Result :=
  checkAccess s.base (x.val + 1)
    (.next (s.setRegs (loadRegs s.v 0 (s.mem.readBlock s.base (x.val + 1)))).next)

end Sys2Proof.Machine
end

