-- ==== Sys2Proof/Machine/KeysTimers.lean ====
section
/-! DEFINITION. Keypad and timer instructions (46_keys_timers.md R140 to R145). -/

namespace Sys2Proof.Machine

/-- `SKP Vx`: skip if the key that `V[x]` names is pressed (R140). -/
def execSkp (x : Reg) (s : State) : Result := withKey (s.reg x) fun k => .next (s.skipIf (s.pressed k))

/-- `SKNP Vx`: skip if the key that `V[x]` names is not pressed (R141). -/
def execSknp (x : Reg) (s : State) : Result := withKey (s.reg x) fun k => .next (s.skipIf (!s.pressed k))

/-- `LD Vx,DT` (R142). -/
def execLdVxDt (x : Reg) (s : State) : Result := .next (s.setReg x s.dt).next

/-- `LD Vx,K`: holds, the whole state unchanged, while every key is up; else loads the least pressed key (R143;
log entry 10). -/
def execLdVxK (x : Reg) (s : State) : Result :=
  match s.leastKey with
  | none => .next s
  | some k => .next (s.setReg x (keyByte k)).next

/-- `LD DT,Vx` (R144). -/
def execLdDtVx (x : Reg) (s : State) : Result := .next (s.setDt (s.reg x)).next

/-- `LD ST,Vx` (R145; 90_conflicts.md C2). -/
def execLdStVx (x : Reg) (s : State) : Result := .next (s.setSt (s.reg x)).next

end Sys2Proof.Machine
end

