-- ==== Sys2Proof/Machine/Skip.lean ====
section
/-! DEFINITION. Compare and skip (42_skip.md R95 to R98): `SE`, `SNE` in both forms. Nothing but `PC` is written. -/

namespace Sys2Proof.Machine

/-- `SE Vx,kk` (R95). -/
def execSeImm (x : Reg) (kk : Byte) (s : State) : Result := .next (s.skipIf (s.reg x == kk))

/-- `SNE Vx,kk` (R96). -/
def execSneImm (x : Reg) (kk : Byte) (s : State) : Result := .next (s.skipIf (s.reg x != kk))

/-- `SE Vx,Vy` (R97). -/
def execSeReg (x y : Reg) (s : State) : Result := .next (s.skipIf (s.reg x == s.reg y))

/-- `SNE Vx,Vy` (R98). -/
def execSneReg (x y : Reg) (s : State) : Result := .next (s.skipIf (s.reg x != s.reg y))

end Sys2Proof.Machine
end

