-- ==== Sys2Proof/Machine/Step.lean ====
section
/-! DEFINITION. The STEP operation (40_step_cycle.md R80 to R89): fetch, decode, execute. -/

namespace Sys2Proof.Machine

/-- Decode and execute an opcode (R82, R83). -/
def runWord (op : Word) (s : State) : Host.Outcome State Fault Refusal :=
  match decode op with
  | .ok i => exec i s
  | .error _ => raise (.unknownOpcode op)

/-- STEP: one instruction in full, or one error and nothing changed (R80, R86). The byte that `RND` draws is the
next free value (log entry 1). -/
def step (s : State) : Host.Outcome State Fault Refusal := s.fetch fun op => runWord op s

/-- The state with the instruction whose bits are `w` stored where the next STEP fetches: at `PC` and `PC + 1`.
Where `PC` is above 0xFFE no fetch can succeed, so there `PC` is set to 0x200 as well (log entry 17). -/
def State.withFetchWord (s : State) (nbits w : Nat) : State :=
  let at' : Nat := if s.pc.toNat ≤ 0xFFE then s.pc.toNat else Config.progBase
  { s with
    pc := BitVec.ofNat 16 at'
    mem := s.mem.writeBlock at' [highByte (tableWord nbits w), lowByte (tableWord nbits w)] }

end Sys2Proof.Machine
end

