-- ==== Sys2Proof/Machine/HostOps.lean ====
section
/-! DEFINITION. The host operations (47_host_operations.md R150 to R157, 70_reset_and_hazards.md R180 to R183): what the outside world can do to the machine, each atomic, one at a time (R5). `step` of Step.lean is STEP with the free draw; here STEP takes the draw as its argument, as the spec writes it. -/

namespace Sys2Proof.Machine

/-- INITIALIZE with the parameter `FONT` (R180, R7): every piece of state at its reset value, whatever it was. The
model's own count of draws goes on, so that no two draws are ever the same free value (log entry 2). -/
def opInitialize (font : Font) (s : State) : State :=
  { State.reset with mem := Memory.writeBlock [] 0 font.toList, draws := s.draws }

/-- LOAD_PROGRAM (R151): the bytes verbatim at 0x200, or `ProgramTooLarge` and nothing written. -/
def opLoadProgram (bytes : List Byte) (s : State) : Result :=
  if Config.progMax < bytes.length then raise .programTooLarge
  else .next (s.setMem (s.mem.writeBlock Config.progBase bytes))

/-- Execute on a given draw: only `RND` looks at it (R88). -/
def execOn (rnd : Byte) (i : Instr) (s : State) : Result :=
  match i with
  | .rnd x kk => execRndOn rnd x kk s
  | i => exec i s

/-- STEP(rnd) (R80). -/
def opStep (rnd : Byte) (s : State) : Result :=
  s.fetch fun op =>
    match decode op with
    | .ok i => execOn rnd i s
    | .error _ => raise (.unknownOpcode op)

/-- SET_KEY (R152): the index is a 4-bit number, so it cannot fail. -/
def opSetKey (index : Reg) (pressed : Bool) (s : State) : State := { s with key := s.key.set index pressed }

/-- A timer counts down by one and stays at zero (R154; log entry 18). -/
def countDown (t : Byte) : Byte := if t = 0 then 0 else t - 1

/-- TICK (R154): one count of both timers. -/
def opTick (s : State) : State := { s with dt := countDown s.dt, st := countDown s.st }

/-- GET_KEY (R153). -/
def opGetKey (index : Reg) (s : State) : Bool := s.pressed index

/-- GET_DISPLAY (R155): the 2048 cells, element `k` being `Disp[k mod 64, k div 64]`. -/
def opGetDisplay (s : State) : List Bool := (List.range 2048).map fun k => cell s.disp (Fin.ofNat 64 k) (Fin.ofNat 32 (k / 64))

/-- GET_REGISTERS (R156): `V[0..15]`, `I`, `PC`, `DT`. -/
def opGetRegisters (s : State) : Vector Byte 16 × Word × Word × Byte := (s.v, s.i, s.pc, s.dt)

/-- The level `sound_active` (R157). -/
def soundActive (s : State) : Bool := s.st != 0

/-- GET_SOUND (R157): `ST` and the level. -/
def opGetSound (s : State) : Byte × Bool := (s.st, soundActive s)

/-- The host operations (R150). -/
inductive HostOp where
  /-- INITIALIZE (R180); the argument is the parameter `FONT` of the model (R7) -/
  | init (font : Font)
  /-- LOAD_PROGRAM (R151) -/
  | loadProgram (bytes : List Byte)
  /-- STEP (R80) -/
  | step (rnd : Byte)
  /-- SET_KEY (R152) -/
  | setKey (index : Reg) (pressed : Bool)
  /-- TICK (R154) -/
  | tick
  /-- GET_KEY (R153) -/
  | getKey (index : Reg)
  /-- GET_DISPLAY (R155) -/
  | getDisplay
  /-- GET_REGISTERS (R156) -/
  | getRegisters
  /-- GET_SOUND (R157) -/
  | getSound
  deriving DecidableEq, Repr

/-- What a host operation answers (R5, R160). -/
inductive Reply where
  /-- success with no value -/
  | ok
  /-- one error kind -/
  | error (e : Fault)
  /-- the level of a key -/
  | key (pressed : Bool)
  /-- the cells of the display -/
  | display (cells : List Bool)
  /-- `V[0..15]`, `I`, `PC`, `DT` -/
  | registers (v : Vector Byte 16) (i pc : Word) (dt : Byte)
  /-- `ST` and `sound_active` -/
  | sound (st : Byte) (active : Bool)
  /-- the model gives no meaning -/
  | noMeaning (r : Refusal)
  deriving DecidableEq, Repr

/-- The reply and the state after an outcome: an error leaves the state as it was (R169) and is not remembered
(R170). -/
def settle (s : State) : Result → Reply × State
  | .next t => (.ok, t)
  | .fault e => (.error e, s)
  | .refused r => (.noMeaning r, s)

/-- One host operation on an initialized machine (R150). -/
def HostOp.apply (op : HostOp) (s : State) : Reply × State :=
  match op with
  | .init font => (.ok, opInitialize font s)
  | .loadProgram bytes => settle s (opLoadProgram bytes s)
  | .step rnd => settle s (opStep rnd s)
  | .setKey k p => (.ok, opSetKey k p s)
  | .tick => (.ok, opTick s)
  | .getKey k => (.key (opGetKey k s), s)
  | .getDisplay => (.display (opGetDisplay s), s)
  | .getRegisters => (.registers s.v s.i s.pc s.dt, s)
  | .getSound => (.sound s.st (soundActive s), s)

/-- One host operation on a machine that may not be initialized yet (`none`): before the first INITIALIZE nothing
else has a meaning (R181, R182). -/
def HostOp.applyPower (op : HostOp) : Option State → Reply × Option State
  | some s => ((op.apply s).1, some (op.apply s).2)
  | none =>
    match op with
    | .init font => (.ok, some (opInitialize font State.reset))
    | .loadProgram _ => (.noMeaning .beforeInitialize, none)
    | .step _ => (.noMeaning .beforeInitialize, none)
    | .setKey _ _ => (.noMeaning .beforeInitialize, none)
    | .tick => (.noMeaning .beforeInitialize, none)
    | .getKey _ => (.noMeaning .beforeInitialize, none)
    | .getDisplay => (.noMeaning .beforeInitialize, none)
    | .getRegisters => (.noMeaning .beforeInitialize, none)
    | .getSound => (.noMeaning .beforeInitialize, none)

/-- The state after a sequence of host operations, in order; a run goes on after an error (R170). -/
def runOps : List HostOp → State → State
  | [], s => s
  | op :: ops, s => runOps ops (op.apply s).2

end Sys2Proof.Machine
end

