-- ==== Sys2Proof/Safety.lean ====
section
/-! DEFINITION. The terms in which claims speak: the spec's tables of when a STEP raises which error, which registers, bytes and program counter an instruction writes, the bit of a sprite that falls on a cell, the invariant, and a safe run. They are written from the rules, not over the meanings. -/

namespace Sys2Proof.Machine

/-- The one check of an instruction (R160, R165, R166, R168): the error it raises in a state, if any. -/
def faultOf : Instr → State → Option Fault
  | .sys _, _ => none
  | .cls, _ => none
  | .ret, s => if s.sp.val = 0 then some .stackUnderflow else none
  | .jp _, _ => none
  | .call _, s => if s.sp.val = 16 then some .stackOverflow else none
  | .seImm _ _, _ => none
  | .sneImm _ _, _ => none
  | .seReg _ _, _ => none
  | .ldImm _ _, _ => none
  | .addImm _ _, _ => none
  | .ldReg _ _, _ => none
  | .orReg _ _, _ => none
  | .andReg _ _, _ => none
  | .xorReg _ _, _ => none
  | .addReg _ _, _ => none
  | .sub _ _, _ => none
  | .shr _, _ => none
  | .subn _ _, _ => none
  | .shl _, _ => none
  | .sneReg _ _, _ => none
  | .ldI _, _ => none
  | .jpV0 _, _ => none
  | .rnd _ _, _ => none
  | .drw _ _ n, s =>
    if 1 ≤ n.val ∧ 0xFFF < s.i.toNat + n.val - 1 then some (.addressFault (max s.i.toNat 0x1000)) else none
  | .skp x, s => if 15 < (s.reg x).toNat then some (.keyIndexFault (s.reg x)) else none
  | .sknp x, s => if 15 < (s.reg x).toNat then some (.keyIndexFault (s.reg x)) else none
  | .ldVxDt _, _ => none
  | .ldVxK _, _ => none
  | .ldDtVx _, _ => none
  | .ldStVx _, _ => none
  | .addI _, _ => none
  | .ldF _, _ => none
  | .ldB _, s => if 0xFFF < s.i.toNat + 2 then some (.addressFault (max s.i.toNat 0x1000)) else none
  | .ldMemVx x, s => if 0xFFF < s.i.toNat + x.val then some (.addressFault (max s.i.toNat 0x1000)) else none
  | .ldVxMem x, s => if 0xFFF < s.i.toNat + x.val then some (.addressFault (max s.i.toNat 0x1000)) else none

/-- The error a STEP raises in a state, if any, in the order of the phases: fetch, decode, execute (R86, R168). -/
def stepFault (s : State) : Option Fault :=
  if 0xFFE < s.pc.toNat then some (.addressFault (max s.pc.toNat 0x1000))
  else
    match decode (composeWord (s.byteAt s.pc.toNat) (s.byteAt (s.pc.toNat + 1))) with
    | .error _ => some (.unknownOpcode (composeWord (s.byteAt s.pc.toNat) (s.byteAt (s.pc.toNat + 1))))
    | .ok i => faultOf i s

/-- The six instructions that write VF as a flag (R11). -/
def setsFlag : Instr → Bool
  | .sys _ => false
  | .cls => false
  | .ret => false
  | .jp _ => false
  | .call _ => false
  | .seImm _ _ => false
  | .sneImm _ _ => false
  | .seReg _ _ => false
  | .ldImm _ _ => false
  | .addImm _ _ => false
  | .ldReg _ _ => false
  | .orReg _ _ => false
  | .andReg _ _ => false
  | .xorReg _ _ => false
  | .addReg _ _ => true
  | .sub _ _ => true
  | .shr _ => true
  | .subn _ _ => true
  | .shl _ => true
  | .sneReg _ _ => false
  | .ldI _ => false
  | .jpV0 _ => false
  | .rnd _ _ => false
  | .drw _ _ _ => true
  | .skp _ => false
  | .sknp _ => false
  | .ldVxDt _ => false
  | .ldVxK _ => false
  | .ldDtVx _ => false
  | .ldStVx _ => false
  | .addI _ => false
  | .ldF _ => false
  | .ldB _ => false
  | .ldMemVx _ => false
  | .ldVxMem _ => false

/-- The registers that an instruction names as its destination: `x`, or `V[0]` to `V[x]` for `LD Vx,[I]`. -/
def namesDest : Instr → Reg → Bool
  | .sys _, _ => false
  | .cls, _ => false
  | .ret, _ => false
  | .jp _, _ => false
  | .call _, _ => false
  | .seImm _ _, _ => false
  | .sneImm _ _, _ => false
  | .seReg _ _, _ => false
  | .ldImm x _, r => r == x
  | .addImm x _, r => r == x
  | .ldReg x _, r => r == x
  | .orReg x _, r => r == x
  | .andReg x _, r => r == x
  | .xorReg x _, r => r == x
  | .addReg x _, r => r == x
  | .sub x _, r => r == x
  | .shr x, r => r == x
  | .subn x _, r => r == x
  | .shl x, r => r == x
  | .sneReg _ _, _ => false
  | .ldI _, _ => false
  | .jpV0 _, _ => false
  | .rnd x _, r => r == x
  | .drw _ _ _, _ => false
  | .skp _, _ => false
  | .sknp _, _ => false
  | .ldVxDt x, r => r == x
  | .ldVxK x, r => r == x
  | .ldDtVx _, _ => false
  | .ldStVx _, _ => false
  | .addI _, _ => false
  | .ldF _, _ => false
  | .ldB _, _ => false
  | .ldMemVx _, _ => false
  | .ldVxMem x, r => decide (r ≤ x)

/-- The bytes of memory that an instruction stores to (R47): three for `LD B,Vx`, `x + 1` for `LD [I],Vx`. -/
def storesTo : Instr → State → Nat → Bool
  | .sys _, _, _ => false
  | .cls, _, _ => false
  | .ret, _, _ => false
  | .jp _, _, _ => false
  | .call _, _, _ => false
  | .seImm _ _, _, _ => false
  | .sneImm _ _, _, _ => false
  | .seReg _ _, _, _ => false
  | .ldImm _ _, _, _ => false
  | .addImm _ _, _, _ => false
  | .ldReg _ _, _, _ => false
  | .orReg _ _, _, _ => false
  | .andReg _ _, _, _ => false
  | .xorReg _ _, _, _ => false
  | .addReg _ _, _, _ => false
  | .sub _ _, _, _ => false
  | .shr _, _, _ => false
  | .subn _ _, _, _ => false
  | .shl _, _, _ => false
  | .sneReg _ _, _, _ => false
  | .ldI _, _, _ => false
  | .jpV0 _, _, _ => false
  | .rnd _ _, _, _ => false
  | .drw _ _ _, _, _ => false
  | .skp _, _, _ => false
  | .sknp _, _, _ => false
  | .ldVxDt _, _, _ => false
  | .ldVxK _, _, _ => false
  | .ldDtVx _, _, _ => false
  | .ldStVx _, _, _ => false
  | .addI _, _, _ => false
  | .ldF _, _, _ => false
  | .ldB _, s, a => decide (s.base ≤ a ∧ a < s.base + 3)
  | .ldMemVx x, s, a => decide (s.base ≤ a ∧ a < s.base + (x.val + 1))
  | .ldVxMem _, _, _ => false

/-- `PC` after an instruction that raises nothing: the table of R83. -/
def pcAfter : Instr → State → Word
  | .sys _, s => s.pc + 2
  | .cls, s => s.pc + 2
  | .ret, s => if h : 0 < s.sp.val then s.stack[s.sp.val - 1]'(by omega) else s.pc
  | .jp nnn, _ => BitVec.ofNat 16 nnn.toNat
  | .call nnn, _ => BitVec.ofNat 16 nnn.toNat
  | .seImm x kk, s => if s.reg x = kk then s.pc + 4 else s.pc + 2
  | .sneImm x kk, s => if s.reg x ≠ kk then s.pc + 4 else s.pc + 2
  | .seReg x y, s => if s.reg x = s.reg y then s.pc + 4 else s.pc + 2
  | .ldImm _ _, s => s.pc + 2
  | .addImm _ _, s => s.pc + 2
  | .ldReg _ _, s => s.pc + 2
  | .orReg _ _, s => s.pc + 2
  | .andReg _ _, s => s.pc + 2
  | .xorReg _ _, s => s.pc + 2
  | .addReg _ _, s => s.pc + 2
  | .sub _ _, s => s.pc + 2
  | .shr _, s => s.pc + 2
  | .subn _ _, s => s.pc + 2
  | .shl _, s => s.pc + 2
  | .sneReg x y, s => if s.reg x ≠ s.reg y then s.pc + 4 else s.pc + 2
  | .ldI _, s => s.pc + 2
  | .jpV0 nnn, s => BitVec.ofNat 16 (nnn.toNat + (s.reg 0).toNat)
  | .rnd _ _, s => s.pc + 2
  | .drw _ _ _, s => s.pc + 2
  | .skp x, s => if ∃ k : Reg, k.val = (s.reg x).toNat ∧ s.pressed k = true then s.pc + 4 else s.pc + 2
  | .sknp x, s => if ∃ k : Reg, k.val = (s.reg x).toNat ∧ s.pressed k = false then s.pc + 4 else s.pc + 2
  | .ldVxDt _, s => s.pc + 2
  | .ldVxK _, s => if ∃ k : Reg, s.pressed k = true then s.pc + 2 else s.pc
  | .ldDtVx _, s => s.pc + 2
  | .ldStVx _, s => s.pc + 2
  | .addI _, s => s.pc + 2
  | .ldF _, s => s.pc + 2
  | .ldB _, s => s.pc + 2
  | .ldMemVx _, s => s.pc + 2
  | .ldVxMem _, s => s.pc + 2

/-- The bit of the `n`-row sprite at `I` that falls on the cell `Disp[px, py]` when its top-left pixel is put at
(`V[x] mod 64`, `V[y] mod 32`): with `c` and `r` the distances from there, round the edges, it is bit `7 - c` of
byte `r` where the sprite reaches so far, else 0 (R132, R133). -/
def spriteBit (s : State) (x y : Reg) (n : Nat) (px : Fin 64) (py : Fin 32) : Bool :=
  decide ((px - s.column x).val < 8) && decide ((py - s.row y).val < n) &&
    (s.byteAt (s.i.toNat + (py - s.row y).val)).getLsbD (7 - (px - s.column x).val)

/-- What every STEP and every host operation keeps: memory in its canonical form, `PC` at most 0x10FE (R13), every
return address in use between 0x002 and 0x1000 (R93). That `SP` is at most 16 (R24) is its type. -/
abbrev Invariant (s : State) : Prop :=
  s.mem.wf = true ∧ s.pc.toNat ≤ 0x10FE ∧
    ∀ j : Fin 16, j.val < s.sp.val → 2 ≤ s.stack[j].toNat ∧ s.stack[j].toNat ≤ 0x1000

/-- The bits of an opcode that take part in decoding and execution: all but the nibble that four rows ignore (R67). -/
def usedBits : Instr → Word
  | .sys _ => 0xFFFF
  | .cls => 0xFFFF
  | .ret => 0xFFFF
  | .jp _ => 0xFFFF
  | .call _ => 0xFFFF
  | .seImm _ _ => 0xFFFF
  | .sneImm _ _ => 0xFFFF
  | .seReg _ _ => 0xFFF0
  | .ldImm _ _ => 0xFFFF
  | .addImm _ _ => 0xFFFF
  | .ldReg _ _ => 0xFFFF
  | .orReg _ _ => 0xFFFF
  | .andReg _ _ => 0xFFFF
  | .xorReg _ _ => 0xFFFF
  | .addReg _ _ => 0xFFFF
  | .sub _ _ => 0xFFFF
  | .shr _ => 0xFF0F
  | .subn _ _ => 0xFFFF
  | .shl _ => 0xFF0F
  | .sneReg _ _ => 0xFFF0
  | .ldI _ => 0xFFFF
  | .jpV0 _ => 0xFFFF
  | .rnd _ _ => 0xFFFF
  | .drw _ _ _ => 0xFFFF
  | .skp _ => 0xFFFF
  | .sknp _ => 0xFFFF
  | .ldVxDt _ => 0xFFFF
  | .ldVxK _ => 0xFFFF
  | .ldDtVx _ => 0xFFFF
  | .ldStVx _ => 0xFFFF
  | .addI _ => 0xFFFF
  | .ldF _ => 0xFFFF
  | .ldB _ => 0xFFFF
  | .ldMemVx _ => 0xFFFF
  | .ldVxMem _ => 0xFFFF

/-- The opcode at `PC`: `Mem[PC] * 256 + Mem[PC + 1]` (R45, R81). -/
abbrev OpcodeAt (s : State) (op : Word) : Prop :=
  op.toNat = (s.byteAt s.pc.toNat).toNat * 256 + (s.byteAt (s.pc.toNat + 1)).toNat

/-- The instruction answers a next state in which `V[x]` is `b`, `PC` has advanced by 2, and nothing else has
changed. -/
def WritesReg (i : Instr) (s : State) (x : Reg) (b : Byte) : Prop :=
  ∃ v : Vector Byte 16, exec i s = .next { s with v := v, pc := s.pc + 2 } ∧
    ∀ r : Reg, v[r] = if r = x then b else s.v[r]

/-- The instruction answers a next state in which VF is `f`, `V[x]` is `b` unless `x = 15`, `PC` has advanced by 2,
and nothing else has changed (R12). -/
def WritesRegAndFlag (i : Instr) (s : State) (x : Reg) (b f : Byte) : Prop :=
  ∃ v : Vector Byte 16, exec i s = .next { s with v := v, pc := s.pc + 2 } ∧
    ∀ r : Reg, v[r] = if r = 15 then f else if r = x then b else s.v[r]

/-- A run of `n` STEPs that raises no error (R189: a run ends at an error). -/
def SafeRun (n : Nat) (s : State) : Prop := ∃ t : State, Sys2Proof.core.run n s = .next t

end Sys2Proof.Machine
end

