-- ==== Sys2Proof/Certificates/Slice0/Obligations.lean ====
section
/-! DEFINITION. The statements for the provers, one for each entry of OBLIGATIONS.json, in its order. Where a statement rests on a choice that the spec marks as its own (a decision, general knowledge, a derivation), its docstring says so. -/

open Sys2Proof Sys2Proof.Machine

/-! ### Encoding and decoding -/

/-- Twenty-one words of 95_test_vectors.md section 2.1, three of them unknown, decode to the verdicts given there. The
numbers are the spec's general knowledge (G1, log entry 11); that 5121, 9AB7 and 8126 decode whatever their ignored
nibble holds is its decisions D12 and D13 (log entry 12). -/
def Obligations.SpecWordsDecode : Prop :=
  decode 0x0000 = .ok (.sys 0x000) ∧ decode 0x00E0 = .ok .cls ∧ decode 0x00E1 = .ok (.sys 0x0E1) ∧
  decode 0x00EE = .ok .ret ∧ decode 0x1234 = .ok (.jp 0x234) ∧ decode 0x2300 = .ok (.call 0x300) ∧
  decode 0x3A7F = .ok (.seImm 10 0x7F) ∧ decode 0x5121 = .ok (.seReg 1 2) ∧ decode 0x71FF = .ok (.addImm 1 0xFF) ∧
  decode 0x8126 = .ok (.shr 1) ∧ decode 0x8127 = .ok (.subn 1 2) ∧ decode 0x8128 = .error (.unknownOpcode 0x8128) ∧
  decode 0x9AB7 = .ok (.sneReg 10 11) ∧ decode 0xB210 = .ok (.jpV0 0x210) ∧ decode 0xC30F = .ok (.rnd 3 0x0F) ∧
  decode 0xD125 = .ok (.drw 1 2 5) ∧ decode 0xE1A1 = .ok (.sknp 1) ∧ decode 0xE19F = .error (.unknownOpcode 0xE19F) ∧
  decode 0xF10A = .ok (.ldVxK 1) ∧ decode 0xF165 = .ok (.ldVxMem 1) ∧ decode 0xF166 = .error (.unknownOpcode 0xF166)

/-- Decoding what the encoder writes gives every well-formed instruction back with every operand, as a word and as the
two bytes at the head of a list. The numbers are the spec's general knowledge (G1, log entry 11); the 0 that the
encoder puts in an ignored nibble follows its decisions D12 and D13 (log entry 12). -/
def Obligations.DecodeOfEncodeIsIdentity : Prop :=
  ∀ (i : Instr) (rest : List Byte), WellFormed i →
    decode (encode i) = .ok i ∧ decodeBytes (encodeBytes i ++ rest) = .ok (i, rest)

/-- Whatever a word decodes to is a well-formed instruction, and encoding it gives the word back with the ignored
nibble of the four rows of R67 cleared (D12, D13, log entry 12). The numbers are the spec's general knowledge (G1, log
entry 11). -/
def Obligations.DecodedWordEncodesBack : Prop :=
  ∀ (op : Word) (i : Instr), decode op = .ok i → WellFormed i ∧ encode i = op &&& usedBits i

/-- The unknown words are exactly those R68 lists, and each is rejected by its own name. R68 is the spec's
derivation from numbers that are its general knowledge (G1, log entry 11); that no word of families 5 and 9 is unknown
whatever its low nibble, nor 8x-6 and 8x-E whatever their y nibble, is its decisions D12 and D13 (log entry 12). -/
def Obligations.UnknownWordsAreExactlyThoseListed : Prop :=
  ∀ (op : Word) (r : Reject), decode op = .error r ↔
    r = .unknownOpcode op ∧
      ((op.toNat / 4096 = 0x8 ∧ op.toNat % 16 ∈ [0x8, 0x9, 0xA, 0xB, 0xC, 0xD, 0xF]) ∨
       (op.toNat / 4096 = 0xE ∧ op.toNat % 256 ∉ [0x9E, 0xA1]) ∨
       (op.toNat / 4096 = 0xF ∧ op.toNat % 256 ∉ [0x07, 0x0A, 0x15, 0x18, 0x1E, 0x29, 0x33, 0x55, 0x65]))

/-! ### The STEP operation -/

/-- When the two bytes at `PC`, high byte first, decode to an instruction, STEP is that instruction's meaning at that
state: nothing is added around it. `PC` may be odd (D7, log entry 8). -/
def Obligations.StepRunsDecodedInstruction : Prop :=
  ∀ (s : State) (op : Word) (i : Instr), s.pc.toNat ≤ 0xFFE → OpcodeAt s op → decode op = .ok i →
    WellFormed i ∧ step s = exec i s

/-- A fetch with `PC` above 0xFFE raises `AddressFault` with the lowest address above 0xFFF. The spec's decision D6
(log entry 6). -/
def Obligations.FetchOutsideMemoryFaults : Prop :=
  ∀ s : State, 0xFFE < s.pc.toNat →
    step s = .fault (.addressFault (if s.pc.toNat = 0xFFF then 0x1000 else s.pc.toNat))

/-- A fetched word that matches no instruction raises `UnknownOpcode` with that word. Which words those are is the
spec's general knowledge (G1, log entry 11); `PC` may be odd (D7, log entry 8). -/
def Obligations.UnknownWordFaults : Prop :=
  ∀ (s : State) (op : Word) (r : Reject), s.pc.toNat ≤ 0xFFE → OpcodeAt s op → decode op = .error r →
    step s = .fault (.unknownOpcode op)

/-- A STEP raises exactly the error that the table of R160 and the order of R168 give, and no STEP is ever refused: it
answers a next state exactly when the table names no error. Two of the errors are the spec's decisions D6 and D8 (log
entries 6 and 7), an odd `PC` raises none by D7 (log entry 8), and which words are unknown is its general knowledge
(G1, log entry 11). -/
def Obligations.StepErrorsAreExactlyTheTable : Prop :=
  ∀ s : State, (∀ f : Fault, step s = .fault f ↔ stepFault s = some f) ∧
    (stepFault s = none ↔ ∃ t, step s = .next t) ∧ (∀ r : Refusal, step s ≠ .refused r)

/-- EVERY instruction answers a next state wherever the one check of its rule passes, and raises that check's error
where it does not; 27 of the 35 always answer a next state (log entry 20). Two of the errors are the spec's
decisions D6 and D8 (log entries 6 and 7); that `LD F,Vx` completes for `V[x]` above 15 is D9 (log entry 9). -/
def Obligations.EveryInstructionCompletesUnlessItsCheckFails : Prop :=
  ∀ (i : Instr) (s : State),
    (faultOf i s = none → ∃ t, exec i s = .next t) ∧ (∀ f, faultOf i s = some f → exec i s = .fault f)

/-! ### Control transfer and the call stack -/

/-- R90: `SYS nnn` only advances `PC` by 2, whatever its operand. -/
def Obligations.SysOnlyAdvances : Prop :=
  ∀ (nnn : Addr12) (s : State), exec (.sys nnn) s = .next { s with pc := s.pc + 2 }

/-- R92: `JP nnn` sets `PC` to `nnn`, every value of it, and changes nothing else. -/
def Obligations.JpSetsPc : Prop :=
  ∀ (nnn : Addr12) (s : State), ∃ a : Word, a.toNat = nnn.toNat ∧ exec (.jp nnn) s = .next { s with pc := a }

/-- R94: `JP V0,nnn` sets `PC` to `nnn + V[0]`, not reduced to 12 bits, and changes nothing else. -/
def Obligations.JpV0AddsV0ToTarget : Prop :=
  ∀ (nnn : Addr12) (s : State), ∃ a : Word,
    a.toNat = nnn.toNat + (s.reg 0).toNat ∧ exec (.jpV0 nnn) s = .next { s with pc := a }

/-- With 16 entries in use `CALL` raises `StackOverflow`; else it writes `PC + 2` to `Stack[SP]`, adds 1 to `SP`, sets
`PC` to `nnn`, and changes nothing else (R93). The array form of the stack is the spec's decision D22; that the slots
above the new entry, which are not in use, keep their values is the model's choice (log entry 15). -/
def Obligations.CallStacksReturnAddress : Prop :=
  ∀ (nnn : Addr12) (s : State),
    (s.sp.val = 16 → exec (.call nnn) s = .fault .stackOverflow) ∧
    (s.sp.val < 16 → ∃ (st : Vector Word 16) (sp : Fin 17) (a : Word),
      exec (.call nnn) s = .next { s with stack := st, sp := sp, pc := a } ∧
      sp.val = s.sp.val + 1 ∧ a.toNat = nnn.toNat ∧
      ∀ j : Fin 16, st[j] = if j.val = s.sp.val then s.pc + 2 else s.stack[j])

/-- With no entry in use `RET` raises `StackUnderflow`; else it subtracts 1 from `SP`, sets `PC` to `Stack[SP]` as it
is, and changes nothing else (R91). The array form of the stack is the spec's decision D22; that the popped slot and
those above it, which are not in use, keep their values is the model's choice (log entry 15). -/
def Obligations.RetGoesToStackedAddress : Prop :=
  ∀ s : State,
    (s.sp.val = 0 → exec .ret s = .fault .stackUnderflow) ∧
    (∀ j : Fin 16, s.sp.val = j.val + 1 → ∃ sp : Fin 17, sp.val = j.val ∧
      exec .ret s = .next { s with sp := sp, pc := s.stack[j] })

/-- A `RET` from any state that has the stack a `CALL` left comes back to the instruction after that `CALL`, with the
stack depth before it. The array form of the stack is the spec's decision D22 (log entry 15). -/
def Obligations.RetUndoesCall : Prop :=
  ∀ (nnn : Addr12) (s t u : State), exec (.call nnn) s = .next t → u.stack = t.stack → u.sp = t.sp →
    ∃ w, exec .ret u = .next w ∧ w.pc = s.pc + 2 ∧ w.sp = s.sp ∧
      ∀ j : Fin 16, j.val < s.sp.val → w.stack[j] = s.stack[j]

/-! ### Compare and skip -/

/-- R95, R96, and R97, R98 in the same way: `SE` advances `PC` by 4 if the operands are equal and by 2 if not, `SNE` the
other way round, and nothing else changes. That the opcodes of the register forms ignore their low nibble is the spec's
decision D12 (log entry 12) and not stated here. -/
def Obligations.CompareAndSkip : Prop :=
  ∀ (x y : Reg) (kk : Byte) (s : State),
    exec (.seImm x kk) s = .next { s with pc := if s.reg x = kk then s.pc + 4 else s.pc + 2 } ∧
    exec (.sneImm x kk) s = .next { s with pc := if s.reg x = kk then s.pc + 2 else s.pc + 4 } ∧
    exec (.seReg x y) s = .next { s with pc := if s.reg x = s.reg y then s.pc + 4 else s.pc + 2 } ∧
    exec (.sneReg x y) s = .next { s with pc := if s.reg x = s.reg y then s.pc + 2 else s.pc + 4 }

/-! ### Register loads, arithmetic, logic, shifts, random -/

/-- R100, R102 to R105: `LD Vx,kk`, `LD Vx,Vy`, `OR`, `AND`, `XOR` write the operand, or the bit by bit result on all 8
bits, to `V[x]`, with no flag effect. -/
def Obligations.LoadsAndLogicWriteVx : Prop :=
  ∀ (x y : Reg) (kk : Byte) (s : State),
    WritesReg (.ldImm x kk) s x kk ∧ WritesReg (.ldReg x y) s x (s.reg y) ∧
    (∃ b, WritesReg (.orReg x y) s x b ∧
      ∀ k < 8, b.getLsbD k = ((s.reg x).getLsbD k || (s.reg y).getLsbD k)) ∧
    (∃ b, WritesReg (.andReg x y) s x b ∧
      ∀ k < 8, b.getLsbD k = ((s.reg x).getLsbD k && (s.reg y).getLsbD k)) ∧
    (∃ b, WritesReg (.xorReg x y) s x b ∧
      ∀ k < 8, b.getLsbD k = ((s.reg x).getLsbD k ^^ (s.reg y).getLsbD k))

/-- R101: `ADD Vx,kk` writes the sum mod 256, with no flag effect. -/
def Obligations.AddImmediateHasNoFlag : Prop :=
  ∀ (x : Reg) (kk : Byte) (s : State), ∃ b : Byte,
    b.toNat = ((s.reg x).toNat + kk.toNat) % 256 ∧ WritesReg (.addImm x kk) s x b

/-- R106: `ADD Vx,Vy` writes the sum mod 256 to `V[x]` and then 1 to VF if the sum is above 255, else 0. -/
def Obligations.AddSetsCarry : Prop :=
  ∀ (x y : Reg) (s : State), ∃ b : Byte, b.toNat = ((s.reg x).toNat + (s.reg y).toNat) % 256 ∧
    WritesRegAndFlag (.addReg x y) s x b (if 255 < (s.reg x).toNat + (s.reg y).toNat then 1 else 0)

/-- R107, R109: `SUB` writes `V[x] - V[y]` mod 256, `SUBN` `V[y] - V[x]`, to `V[x]`, and then 1 to VF if there is no
borrow, equality included, else 0. -/
def Obligations.SubtractionsSetNoBorrow : Prop :=
  ∀ (x y : Reg) (s : State),
    (∃ b : Byte, (b.toNat : Int) = ((s.reg x).toNat - (s.reg y).toNat : Int) % 256 ∧
      WritesRegAndFlag (.sub x y) s x b (if (s.reg y).toNat ≤ (s.reg x).toNat then 1 else 0)) ∧
    (∃ b : Byte, (b.toNat : Int) = ((s.reg y).toNat - (s.reg x).toNat : Int) % 256 ∧
      WritesRegAndFlag (.subn x y) s x b (if (s.reg x).toNat ≤ (s.reg y).toNat then 1 else 0))

/-- `SHR` writes the halved register and then its old bit 0 to VF; `SHL` the doubled register mod 256 and then its old
bit 7 (R108, R110). That neither reads `V[y]` is the spec's decision D13 (log entry 12). -/
def Obligations.ShiftsSetBitShiftedOut : Prop :=
  ∀ (x : Reg) (s : State),
    (∃ b f : Byte, b.toNat = (s.reg x).toNat / 2 ∧ f.toNat = (s.reg x).toNat % 2 ∧
      WritesRegAndFlag (.shr x) s x b f) ∧
    (∃ b f : Byte, b.toNat = 2 * (s.reg x).toNat % 256 ∧ f.toNat = (s.reg x).toNat / 128 ∧
      WritesRegAndFlag (.shl x) s x b f)

/-- `RND Vx,kk` writes the draw masked by `kk`, for EVERY draw, with no flag effect; the machine's own step takes the
next free value as the draw. That the draw is an input under no law is the spec's decision D11; that the model counts
draws is log entry 1. -/
def Obligations.RndMasksTheDraw : Prop :=
  ∀ (x : Reg) (kk : Byte) (s : State),
    (∀ d : Byte, ∃ v : Vector Byte 16,
      execOn d (.rnd x kk) s = .next { s with v := v, pc := s.pc + 2, draws := s.draws + 1 } ∧
      ∀ r : Reg, v[r] = if r = x then d &&& kk else s.v[r]) ∧
    exec (.rnd x kk) s = execOn (Config.rnd s.draws) (.rnd x kk) s

/-! ### The index register and memory transfers -/

/-- R120, R121: `LD I,nnn` sets `I` to `nnn`; `ADD I,Vx` adds `V[x]` mod 65536, with no flag effect. Nothing else
changes but `PC`. -/
def Obligations.IndexLoadAndAdd : Prop :=
  ∀ (nnn : Addr12) (x : Reg) (s : State),
    (∃ a : Word, a.toNat = nnn.toNat ∧ exec (.ldI nnn) s = .next { s with i := a, pc := s.pc + 2 }) ∧
    (∃ a : Word, a.toNat = (s.i.toNat + (s.reg x).toNat) % 65536 ∧
      exec (.addI x) s = .next { s with i := a, pc := s.pc + 2 })

/-- `LD F,Vx` sets `I` to `5 * V[x]` for every value of `V[x]`. For values above 15 the spec's decision D9 (log
entry 9). -/
def Obligations.LdFPointsAtGlyph : Prop :=
  ∀ (x : Reg) (s : State), ∃ a : Word,
    a.toNat = 5 * (s.reg x).toNat ∧ exec (.ldF x) s = .next { s with i := a, pc := s.pc + 2 }

/-- `LD B,Vx` stores the decimal digits of `V[x]` at `I`, `I + 1`, `I + 2`, so that they make `V[x]` again; every other
byte reads as before and nothing else changes but `PC`. Out of bounds it raises `AddressFault` (D6, log entry 6); that
`I` stays is D17 (log entry 23). -/
def Obligations.LdBStoresDecimalDigits : Prop :=
  ∀ (x : Reg) (s : State), s.mem.wf = true →
    (s.i.toNat + 2 ≤ 0xFFF → ∃ m : Memory,
      exec (.ldB x) s = .next { s with mem := m, pc := s.pc + 2 } ∧
      100 * (m.read s.i.toNat).toNat + 10 * (m.read (s.i.toNat + 1)).toNat + (m.read (s.i.toNat + 2)).toNat
        = (s.reg x).toNat ∧
      (m.read (s.i.toNat + 1)).toNat ≤ 9 ∧ (m.read (s.i.toNat + 2)).toNat ≤ 9 ∧
      ∀ a, ¬ (s.i.toNat ≤ a ∧ a < s.i.toNat + 3) → m.read a = s.byteAt a) ∧
    (0xFFF < s.i.toNat + 2 → exec (.ldB x) s = .fault (.addressFault (max s.i.toNat 0x1000)))

/-- `LD [I],Vx` stores `V[0]` to `V[x]` at `I` to `I + x`; every other byte reads as before and nothing else changes but
`PC`. Out of bounds it raises `AddressFault` (D6, log entry 6); that `I` stays is D17 (log entry 23). -/
def Obligations.LdMemVxStoresRegisters : Prop :=
  ∀ (x : Reg) (s : State), s.mem.wf = true →
    (s.i.toNat + x.val ≤ 0xFFF → ∃ m : Memory,
      exec (.ldMemVx x) s = .next { s with mem := m, pc := s.pc + 2 } ∧
      (∀ r : Reg, r ≤ x → m.read (s.i.toNat + r.val) = s.reg r) ∧
      ∀ a, ¬ (s.i.toNat ≤ a ∧ a < s.i.toNat + (x.val + 1)) → m.read a = s.byteAt a) ∧
    (0xFFF < s.i.toNat + x.val → exec (.ldMemVx x) s = .fault (.addressFault (max s.i.toNat 0x1000)))

/-- `LD Vx,[I]` loads `V[0]` to `V[x]` from `I` to `I + x`; registers above `x` keep their values and nothing else
changes but `PC`. Out of bounds it raises `AddressFault` (D6, log entry 6); that `I` stays is D17 (log entry 23). -/
def Obligations.LdVxMemLoadsRegisters : Prop :=
  ∀ (x : Reg) (s : State),
    (s.i.toNat + x.val ≤ 0xFFF → ∃ v : Vector Byte 16,
      exec (.ldVxMem x) s = .next { s with v := v, pc := s.pc + 2 } ∧
      ∀ r : Reg, v[r] = if r ≤ x then s.byteAt (s.i.toNat + r.val) else s.v[r]) ∧
    (0xFFF < s.i.toNat + x.val → exec (.ldVxMem x) s = .fault (.addressFault (max s.i.toNat 0x1000)))

/-- Law 6 of 95_test_vectors.md: whatever the registers hold by then, `LD Vx,[I]` after `LD [I],Vx` with memory and `I`
as that left them gives `V[0]` to `V[x]` back. Rests on D17 (log entry 23). -/
def Obligations.StoredRegistersLoadBack : Prop :=
  ∀ (x : Reg) (s t u : State), s.mem.wf = true → exec (.ldMemVx x) s = .next t → u.mem = t.mem → u.i = t.i →
    ∃ w, exec (.ldVxMem x) u = .next w ∧ ∀ r : Reg, r ≤ x → w.reg r = s.reg r

/-- A store is seen by the very next fetch: after `LD [I],Vx` with `x` at least 1, the opcode at the address `I` is
`V[0]` and `V[1]`, high byte first, and a STEP there runs what it decodes to. The spec derives this (R51); that `I` may
be odd there is its decision D7 (log entry 8). -/
def Obligations.StoredBytesAreFetched : Prop :=
  ∀ (x : Reg) (s t : State) (op : Word) (i : Instr), s.mem.wf = true → 1 ≤ x.val → exec (.ldMemVx x) s = .next t →
    op.toNat = (s.reg 0).toNat * 256 + (s.reg 1).toNat → decode op = .ok i →
    step { t with pc := s.i } = exec i { t with pc := s.i }

/-! ### The display -/

/-- R130: `CLS` sets every cell to 0, leaves VF and every other register alone, and changes nothing else but `PC`. -/
def Obligations.ClsClearsEveryCell : Prop :=
  ∀ s : State, ∃ d : Display, exec .cls s = .next { s with disp := d, pc := s.pc + 2 } ∧
    ∀ (px : Fin 64) (py : Fin 32), cell d px py = false

/-- The closed form of the collision detector (R133, which the spec derives from R131): every cell is its old value
exclusive-or the sprite's bit on it; VF is 1 exactly when some cell that held 1 has a 1 bit on it, else 0; nothing else
changes but `PC`. With no rows the address is not looked at. Which bit falls on which cell rests on general knowledge
(G3, log entry 13); the bounds check is D6 (log entry 6); that `I` stays is D17 (log entry 23). -/
def Obligations.DrwIsExclusiveOrWithCollision : Prop :=
  ∀ (x y : Reg) (n : Fin 16) (s : State),
    (n.val = 0 ∨ s.i.toNat + n.val - 1 ≤ 0xFFF → ∃ (v : Vector Byte 16) (d : Display),
      exec (.drw x y n) s = .next { s with v := v, disp := d, pc := s.pc + 2 } ∧
      (∀ px py, cell d px py = (cell s.disp px py ^^ spriteBit s x y n.val px py)) ∧
      (v[(15 : Reg)] = if ∃ px py, cell s.disp px py = true ∧ spriteBit s x y n.val px py = true then 1 else 0) ∧
      ∀ r : Reg, r ≠ 15 → v[r] = s.v[r]) ∧
    (1 ≤ n.val ∧ 0xFFF < s.i.toNat + n.val - 1 →
      exec (.drw x y n) s = .fault (.addressFault (max s.i.toNat 0x1000)))

/-- R134 (a) and (b), which the spec derives: drawing the same sprite again at the same coordinates restores the
display, and the second draw reports a collision exactly when the first lit a dark cell. It holds under any order of
the sprite's bits. That `I` stays is the spec's decision D17 (log entry 23). -/
def Obligations.DrawingTwiceRestoresDisplay : Prop :=
  ∀ (x y x' y' : Reg) (n : Fin 16) (s t u : State), exec (.drw x y n) s = .next t →
    u.disp = t.disp → u.mem = t.mem → u.i = t.i → u.column x' = s.column x → u.row y' = s.row y →
    ∃ w, exec (.drw x' y' n) u = .next w ∧ w.disp = s.disp ∧
      (w.reg 15 = 1 ↔ ∃ px py, cell s.disp px py = false ∧ cell t.disp px py = true)

/-! ### Keypad and timers -/

/-- `SKP` skips if the key that `V[x]` names is pressed, `SKNP` if it is not; nothing but `PC` changes. For `V[x]`
above 15 both raise `KeyIndexFault`, the spec's decision D8 (log entry 7). -/
def Obligations.KeySkips : Prop :=
  ∀ (x : Reg) (s : State),
    (∀ k : Reg, k.val = (s.reg x).toNat →
      exec (.skp x) s = .next { s with pc := if s.key[k] = true then s.pc + 4 else s.pc + 2 } ∧
      exec (.sknp x) s = .next { s with pc := if s.key[k] = true then s.pc + 2 else s.pc + 4 }) ∧
    (15 < (s.reg x).toNat → exec (.skp x) s = .fault (.keyIndexFault (s.reg x)) ∧
      exec (.sknp x) s = .fault (.keyIndexFault (s.reg x)))

/-- `LD Vx,K` leaves the whole state unchanged while every key is up, and else loads the number of the least pressed key.
Level and least key are the spec's decision D10 (log entry 10). -/
def Obligations.KeyWaitHoldsOrLoadsLeastKey : Prop :=
  ∀ (x : Reg) (s : State),
    ((∀ k : Reg, s.key[k] = false) → exec (.ldVxK x) s = .next s) ∧
    (∀ k : Reg, s.key[k] = true → (∀ j : Reg, j < k → s.key[j] = false) →
      ∃ b : Byte, b.toNat = k.val ∧ WritesReg (.ldVxK x) s x b)

/-- `LD Vx,DT` reads the delay timer, `LD DT,Vx` and `LD ST,Vx` set the timers; nothing else changes but `PC` (R142,
R144, R145). That `ST` is state which `LD ST,Vx` sets is the spec's resolution of its conflict C2 (log entry 22). -/
def Obligations.TimerMoves : Prop :=
  ∀ (x : Reg) (s : State),
    WritesReg (.ldVxDt x) s x s.dt ∧
    exec (.ldDtVx x) s = .next { s with dt := s.reg x, pc := s.pc + 2 } ∧
    exec (.ldStVx x) s = .next { s with st := s.reg x, pc := s.pc + 2 }

/-! ### Frames over all instructions -/

/-- No instruction changes a register but the destination it names (`x`, or `V[0]` to `V[x]` for `LD Vx,[I]`) and, for
the six flag instructions, VF. -/
def Obligations.OnlyDestinationRegistersChange : Prop :=
  ∀ (i : Instr) (s t : State) (r : Reg), exec i s = .next t → namesDest i r = false →
    (r = 15 → setsFlag i = false) → t.reg r = s.reg r

/-- After each of the six flag instructions VF is 0 or 1, whatever register the instruction names. -/
def Obligations.FlagIsZeroOrOne : Prop :=
  ∀ (i : Instr) (s t : State), setsFlag i = true → exec i s = .next t → t.reg 15 = 0 ∨ t.reg 15 = 1

/-- No instruction changes a byte of memory outside the bytes it stores to: `I` to `I + 2` for `LD B,Vx`, `I` to
`I + x` for `LD [I],Vx`, none for every other. -/
def Obligations.OnlyStoredBytesChange : Prop :=
  ∀ (i : Instr) (s t : State) (a : Nat), exec i s = .next t → storesTo i s a = false → t.byteAt a = s.byteAt a

/-- What each piece of state outside the registers, memory and `PC` may be changed by: `I` by three instructions, the
stack entries by `CALL`, `SP` by `CALL` and `RET`, the display by `CLS` and `DRW`, each timer by its own load, the
keys by none; the model's own count of draws (log entry 1) by `RND`. That `I` stays in block transfers and `DRW` is the
spec's decision D17 (log entry 23); that a `RET` leaves the popped slot, which is not in use, as it was is the model's
choice (D22, log entry 15); that `ST` is state is its resolution of conflict C2 (log entry 22). -/
def Obligations.StateHasNoOtherWriters : Prop :=
  ∀ (i : Instr) (s t : State), exec i s = .next t →
    (t.i ≠ s.i → (∃ nnn, i = .ldI nnn) ∨ (∃ x, i = .addI x) ∨ ∃ x, i = .ldF x) ∧
    (t.stack ≠ s.stack → ∃ nnn, i = .call nnn) ∧
    (t.sp ≠ s.sp → i = .ret ∨ ∃ nnn, i = .call nnn) ∧
    (t.disp ≠ s.disp → i = .cls ∨ ∃ x y n, i = .drw x y n) ∧
    (t.dt ≠ s.dt → ∃ x, i = .ldDtVx x) ∧
    (t.st ≠ s.st → ∃ x, i = .ldStVx x) ∧
    t.key = s.key ∧
    (t.draws ≠ s.draws → ∃ x kk, i = .rnd x kk)

/-- Every instruction that raises nothing leaves `PC` where the table of R83 says: at `PC + 2`, at `PC + 4` for a skip
taken, at its target, or unchanged for `LD Vx,K` with no key pressed; a STEP that raises an error leaves it unchanged.
That `LD Vx,K` goes by the level of the keys is the spec's decision D10 (log entry 10). -/
def Obligations.PcGoesByTheTable : Prop :=
  (∀ (i : Instr) (s t : State), exec i s = .next t → t.pc = pcAfter i s) ∧
  ∀ (d : Byte) (s : State) (e : Fault), ((HostOp.step d).apply s).1 = .error e → ((HostOp.step d).apply s).2.pc = s.pc

/-! ### What an instruction cannot see -/

/-- No instruction but `RND` sees the draws: with another count of draws it does the same. -/
def Obligations.OnlyRndSeesDraws : Prop :=
  ∀ (i : Instr) (s : State) (d : Nat), (∀ x kk, i ≠ .rnd x kk) →
    (∀ t, exec i s = .next t → exec i { s with draws := d } = .next { t with draws := d }) ∧
    (∀ f, exec i s = .fault f → exec i { s with draws := d } = .fault f)

/-- No program sees the sound timer: with another value of `ST` a STEP does the same, `ST` apart. That `ST` is state is
the spec's resolution of its conflict C2 (log entry 22). -/
def Obligations.SoundTimerIsInvisible : Prop :=
  ∀ (s : State) (b : Byte),
    (∀ t, step s = .next t → ∃ c, step { s with st := b } = .next { t with st := c }) ∧
    (∀ f, step s = .fault f → step { s with st := b } = .fault f)

/-- The machine's step is the host operation STEP on the next free value, and STEP is the machine's step on EVERY draw
where the instruction is not `RND`. That the draw is an argument is the spec's decision D11 (log entry 1). -/
def Obligations.StepIsStepOnFreeDraw : Prop :=
  (∀ s : State, step s = opStep (Config.rnd s.draws) s) ∧
  ∀ (s : State) (d : Byte) (op : Word) (i : Instr), s.pc.toNat ≤ 0xFFE → OpcodeAt s op → decode op = .ok i →
    (∀ x kk, i ≠ .rnd x kk) → opStep d s = step s

/-! ### Invariants and whole runs -/

/-- The state after reset meets the invariant. -/
def Obligations.ResetMeetsInvariant : Prop := Invariant State.reset

/-- Every STEP keeps the invariant: memory in its canonical form, `PC` at most 0x10FE, every return address in use
between 0x002 and 0x1000. The canonical form is the model's own. -/
def Obligations.StepKeepsInvariant : Prop :=
  ∀ s t : State, Invariant s → step s = .next t → Invariant t

/-- Whatever the host does after an INITIALIZE with any `FONT`, from any state, the invariant holds. The canonical form
is the model's own; that LOAD_PROGRAM may come in any state is the spec's decision D19 (log entry 19). -/
def Obligations.EveryHostRunKeepsInvariant : Prop :=
  ∀ (font : Font) (s : State) (ops : List HostOp), Invariant (runOps ops (opInitialize font s))

/-- Two memories in canonical form that read alike everywhere are the same data. The canonical form is the model's
own, and what an unlisted address reads as is log entry 3. -/
def Obligations.CanonicalMemoriesThatReadAlikeAreEqual : Prop :=
  ∀ m m' : Memory, m.wf = true → m'.wf = true → (∀ a, m.read a = m'.read a) → m = m'

/-- The fixed points of STEP are exactly the three of R189: a `JP` to itself, a `JP V0` to itself, and `LD Vx,K` while no
key is down. That they end a run is the spec's decision D20, and that `LD Vx,K` goes by the level of the keys is D10 (log
entry 10); a jump to itself at an odd `PC` is one by D7 (log entry 8); that these are all is what this states. -/
def Obligations.FixedPointsOfStep : Prop :=
  ∀ s : State, step s = .next s ↔
    s.pc.toNat ≤ 0xFFE ∧ ∃ op : Word, OpcodeAt s op ∧
      ((∃ nnn, decode op = .ok (.jp nnn) ∧ nnn.toNat = s.pc.toNat) ∨
       (∃ nnn, decode op = .ok (.jpV0 nnn) ∧ nnn.toNat + (s.reg 0).toNat = s.pc.toNat) ∨
       (∃ x, decode op = .ok (.ldVxK x) ∧ ∀ k : Reg, s.key[k] = false))

/-- While no key is down a held `LD Vx,K` may repeat without bound: however many STEPs are run, none raises an error and
the state stays as it is. That the wait goes by the level of the keys is the spec's decision D10 (log
entry 10); `PC` may be odd by D7 (log entry 8). -/
def Obligations.KeyWaitHoldsWithoutBound : Prop :=
  ∀ (s : State) (op : Word) (x : Reg) (n : Nat), s.pc.toNat ≤ 0xFFE → OpcodeAt s op → decode op = .ok (.ldVxK x) →
    (∀ k : Reg, s.key[k] = false) → SafeRun n s ∧ Sys2Proof.core.run n s = .next s

/-! ### Reset and the host operations -/

/-- The values after reset (R25). That `I`, the stack entries and memory above the font are zero are the spec's decisions
D4, D5 (log entry 4), and the font is its default of the parameter `FONT` (log entry 3); that `ST` is
state is its resolution of conflict C2 (log entry 22). -/
def Obligations.ResetValues : Prop :=
  (∀ r : Reg, State.reset.reg r = 0) ∧ State.reset.pc = 0x200 ∧ State.reset.i = 0 ∧ State.reset.sp = 0 ∧
  (∀ j : Fin 16, State.reset.stack[j] = 0) ∧ (∀ px py, cell State.reset.disp px py = false) ∧
  State.reset.dt = 0 ∧ State.reset.st = 0 ∧ (∀ k : Reg, State.reset.key[k] = false) ∧
  (∀ a : Fin 80, State.reset.byteAt a.val = Config.font[a]) ∧ ∀ a, 80 ≤ a → State.reset.byteAt a = 0

/-- INITIALIZE with any `FONT`, from any state, gives the reset state with that `FONT` at 0x000 to 0x04F and zero above
(R180, D4, D5, D15); only the model's own count of draws goes on (log entry 2). -/
def Obligations.InitializeInstallsAnyFont : Prop :=
  ∀ (font : Font) (s : State), ∃ m : Memory,
    opInitialize font s = { State.reset with mem := m, draws := s.draws } ∧ m.wf = true ∧
    (∀ a : Fin 80, m.read a.val = font[a]) ∧ ∀ a, 80 ≤ a → m.read a = 0

/-- R183: a second INITIALIZE changes nothing, and after INITIALIZE and a LOAD_PROGRAM that fits `PC` is 0x200. -/
def Obligations.InitializeIsIdempotent : Prop :=
  ∀ (font : Font) (s : State) (bytes : List Byte),
    opInitialize font (opInitialize font s) = opInitialize font s ∧
    (bytes.length ≤ 3584 → ∃ t, opLoadProgram bytes (opInitialize font s) = .next t ∧ t.pc = 0x200)

/-- LOAD_PROGRAM copies the bytes to 0x200 upward and changes nothing else, or raises `ProgramTooLarge` when there are
more than 3584. That it may come in any state is the spec's decision D19 (log entry 19). -/
def Obligations.LoadProgramCopiesBytes : Prop :=
  ∀ (bytes : List Byte) (s : State), s.mem.wf = true →
    (bytes.length ≤ 3584 → ∃ m : Memory, opLoadProgram bytes s = .next { s with mem := m } ∧
      (∀ (k : Nat) (h : k < bytes.length), m.read (0x200 + k) = bytes[k]) ∧
      ∀ a, ¬ (0x200 ≤ a ∧ a < 0x200 + bytes.length) → m.read a = s.byteAt a) ∧
    (3584 < bytes.length → opLoadProgram bytes s = .fault .programTooLarge)

/-- R152, R153: SET_KEY sets the one flag and changes nothing else; GET_KEY returns a flag and changes nothing. -/
def Obligations.SetKeyAndGetKey : Prop :=
  ∀ (k : Reg) (p : Bool) (s : State),
    (∃ ks : Vector Bool 16, (HostOp.setKey k p).apply s = (.ok, { s with key := ks }) ∧
      ∀ j : Reg, ks[j] = if j = k then p else s.key[j]) ∧
    (HostOp.getKey k).apply s = (.key s.key[k], s)

/-- TICK counts each timer down by one, a timer at zero staying there, and changes nothing else. The operation is the
spec's decision D3 and the stop at zero its general knowledge (D24, G4, log entry 18); that `ST` is state is its
resolution of conflict C2 (log entry 22). -/
def Obligations.TickCountsBothTimers : Prop :=
  ∀ s : State, ∃ dt st : Byte, HostOp.tick.apply s = (.ok, { s with dt := dt, st := st }) ∧
    dt.toNat = s.dt.toNat - 1 ∧ st.toNat = s.st.toNat - 1

/-- The read views change nothing and return what they name; element `k` of the 2048 of GET_DISPLAY is the cell at
column `k mod 64` and row `k div 64`. GET_SOUND is the spec's decision D2 (log entry 22). -/
def Obligations.ReadViews : Prop :=
  ∀ s : State,
    (∃ cells : List Bool, HostOp.getDisplay.apply s = (.display cells, s) ∧ cells.length = 2048 ∧
      ∀ (px : Fin 64) (py : Fin 32), cells[py.val * 64 + px.val]? = some (cell s.disp px py)) ∧
    HostOp.getRegisters.apply s = (.registers s.v s.i s.pc s.dt, s) ∧
    HostOp.getSound.apply s = (.sound s.st (decide (s.st ≠ 0)), s)

/-- R169: a host operation that ends with an error leaves the whole state as it was. -/
def Obligations.ErrorsChangeNothing : Prop :=
  ∀ (op : HostOp) (s : State) (e : Fault), (op.apply s).1 = .error e → (op.apply s).2 = s

/-- R170, which the spec derives: after a failed STEP neither another draw, nor SET_KEY, nor TICK makes the next one do
anything but fail the same way. Two error kinds are the spec's decisions D6 and D8 (log entries 6 and 7), and that no
error is remembered is D23 (log entry 5). -/
def Obligations.FailedStepFailsTheSameWay : Prop :=
  ∀ (s : State) (d d' : Byte) (e : Fault) (k : Reg) (p : Bool), opStep d s = .fault e →
    opStep d' s = .fault e ∧ opStep d' (opSetKey k p s) = .fault e ∧ opStep d' (opTick s) = .fault e

/-- Before the first INITIALIZE no other operation has a meaning, and INITIALIZE makes the machine. The spec's decision
D18 (log entry 16). -/
def Obligations.NothingBeforeInitialize : Prop :=
  (∀ (op : HostOp), (∀ font, op ≠ .init font) → op.applyPower none = (.noMeaning .beforeInitialize, none)) ∧
  (∀ (font : Font) (s : State), (HostOp.init font).applyPower (some s) = (.ok, some (opInitialize font s)) ∧
    (HostOp.init font).applyPower none = (.ok, some (opInitialize font State.reset)))
end

