-- ==== Sys2Proof/Laws/Decode.lean ====
section
/-! SUPPORT. The fields of a word and the words that pack fields, as numbers, so that every field of a packed word is known to be what was packed; the two bytes of a word make it again. -/

namespace Sys2Proof

/-! ### The fields of a word as numbers -/

theorem opP_toNat (op : Word) : (opP op).toNat = op.toNat / 4096 := by
  have := op.isLt
  simp only [opP, BitVec.extractLsb'_toNat, Nat.shiftRight_eq_div_pow]; omega

theorem opX_val (op : Word) : (opX op).val = op.toNat / 256 % 16 := by
  show (op.extractLsb' 8 4).toNat = _
  simp only [BitVec.extractLsb'_toNat, Nat.shiftRight_eq_div_pow]

theorem opY_val (op : Word) : (opY op).val = op.toNat / 16 % 16 := by
  show (op.extractLsb' 4 4).toNat = _
  simp only [BitVec.extractLsb'_toNat, Nat.shiftRight_eq_div_pow]

theorem opN_val (op : Word) : (opN op).val = op.toNat % 16 := by
  show (op.extractLsb' 0 4).toNat = _
  simp only [BitVec.extractLsb'_toNat, Nat.shiftRight_eq_div_pow]; omega

theorem opKk_toNat (op : Word) : (opKk op).toNat = op.toNat % 256 := by
  simp only [opKk, BitVec.extractLsb'_toNat, Nat.shiftRight_eq_div_pow]; omega

theorem opNnn_toNat (op : Word) : (opNnn op).toNat = op.toNat % 4096 := by
  simp only [opNnn, BitVec.extractLsb'_toNat, Nat.shiftRight_eq_div_pow]; omega

/-! ### Packed words as numbers -/

theorem append_toNat {v w : Nat} (a : BitVec v) (b : BitVec w) : (a ++ b).toNat = a.toNat * 2 ^ w + b.toNat := by
  rw [BitVec.toNat_append, ← Nat.shiftLeft_add_eq_or_of_lt b.isLt, Nat.shiftLeft_eq]

theorem packNnn_toNat (p : BitVec 4) (nnn : Addr12) : (packNnn p nnn).toNat = p.toNat * 4096 + nnn.toNat :=
  append_toNat p nnn

theorem packXkk_toNat (p : BitVec 4) (x : Reg) (kk : Byte) :
    (packXkk p x kk).toNat = p.toNat * 4096 + x.val * 256 + kk.toNat := by
  have h1 : (packXkk p x kk).toNat = (p ++ regBits x).toNat * 2 ^ 8 + kk.toNat := append_toNat _ _
  rw [h1, append_toNat, show (regBits x).toNat = x.val from rfl]; ring

theorem packXyn_toNat (p : BitVec 4) (x y : Reg) (n : Fin 16) :
    (packXyn p x y n).toNat = p.toNat * 4096 + x.val * 256 + y.val * 16 + n.val := by
  have h1 : (packXyn p x y n).toNat = (p ++ regBits x ++ regBits y).toNat * 2 ^ 4 + (regBits n).toNat := append_toNat _ _
  rw [h1, append_toNat, append_toNat, show (regBits x).toNat = x.val from rfl, show (regBits y).toNat = y.val from rfl,
    show (regBits n).toNat = n.val from rfl]
  ring

/-! ### The fields of packed words -/

@[simp] theorem opP_packNnn (p : BitVec 4) (nnn : Addr12) : opP (packNnn p nnn) = p := by
  apply BitVec.eq_of_toNat_eq; rw [opP_toNat, packNnn_toNat]; omega

@[simp] theorem opNnn_packNnn (p : BitVec 4) (nnn : Addr12) : opNnn (packNnn p nnn) = nnn := by
  apply BitVec.eq_of_toNat_eq; rw [opNnn_toNat, packNnn_toNat]; omega

@[simp] theorem opP_packXkk (p : BitVec 4) (x : Reg) (kk : Byte) : opP (packXkk p x kk) = p := by
  apply BitVec.eq_of_toNat_eq; rw [opP_toNat, packXkk_toNat]; omega

@[simp] theorem opX_packXkk (p : BitVec 4) (x : Reg) (kk : Byte) : opX (packXkk p x kk) = x := by
  apply Fin.ext; rw [opX_val, packXkk_toNat]; omega

@[simp] theorem opKk_packXkk (p : BitVec 4) (x : Reg) (kk : Byte) : opKk (packXkk p x kk) = kk := by
  apply BitVec.eq_of_toNat_eq; rw [opKk_toNat, packXkk_toNat]; omega

@[simp] theorem opP_packXyn (p : BitVec 4) (x y : Reg) (n : Fin 16) : opP (packXyn p x y n) = p := by
  apply BitVec.eq_of_toNat_eq; rw [opP_toNat, packXyn_toNat]; omega

@[simp] theorem opX_packXyn (p : BitVec 4) (x y : Reg) (n : Fin 16) : opX (packXyn p x y n) = x := by
  apply Fin.ext; rw [opX_val, packXyn_toNat]; omega

@[simp] theorem opY_packXyn (p : BitVec 4) (x y : Reg) (n : Fin 16) : opY (packXyn p x y n) = y := by
  apply Fin.ext; rw [opY_val, packXyn_toNat]; omega

@[simp] theorem opN_packXyn (p : BitVec 4) (x y : Reg) (n : Fin 16) : opN (packXyn p x y n) = n := by
  apply Fin.ext; rw [opN_val, packXyn_toNat]; omega

/-! ### The bytes of a word -/

theorem composeWord_toNat (hi lo : Byte) : (composeWord hi lo).toNat = hi.toNat * 256 + lo.toNat := append_toNat hi lo

theorem composeWord_bytes (op : Word) : composeWord (highByte op) (lowByte op) = op := by
  have := op.isLt
  apply BitVec.eq_of_toNat_eq
  rw [composeWord_toNat]
  simp only [highByte, lowByte, BitVec.extractLsb'_toNat, Nat.shiftRight_eq_div_pow]; omega

@[simp] theorem highByte_composeWord (hi lo : Byte) : highByte (composeWord hi lo) = hi := by
  apply BitVec.eq_of_toNat_eq
  simp only [highByte, BitVec.extractLsb'_toNat, composeWord_toNat, Nat.shiftRight_eq_div_pow]; omega

@[simp] theorem lowByte_composeWord (hi lo : Byte) : lowByte (composeWord hi lo) = lo := by
  apply BitVec.eq_of_toNat_eq
  simp only [lowByte, BitVec.extractLsb'_toNat, composeWord_toNat, Nat.shiftRight_eq_div_pow]; omega

/-- The decoder reads the two bytes of a word as the word. -/
theorem decodeBytes_bytes (op : Word) (rest : List Byte) :
    decodeBytes (highByte op :: lowByte op :: rest) =
      match decode op with
      | .ok i => .ok (i, rest)
      | .error e => .error e := by
  cases h : decode op <;> simp [decodeBytes, composeWord_bytes, h]

end Sys2Proof
end

