-- ==== Sys2Proof/Laws/Memory.lean ====
section
/-! SUPPORT. The laws of memory: reading after writing, one byte and a block; every memory operation keeps the canonical form. -/

namespace Sys2Proof.Machine

@[simp] theorem Memory.read_nil (a : Nat) : Memory.read [] a = Memory.unlisted a := rfl

@[simp] theorem Memory.read_cons (k a : Nat) (b : Byte) (m : Memory) :
    Memory.read ((k, b) :: m) a = if k = a then b else Memory.read m a := rfl

@[simp] theorem Memory.wfFrom_nil (lo : Nat) : Memory.wfFrom lo [] = true := rfl

theorem Memory.wfFrom_cons (lo k : Nat) (b : Byte) (m : Memory) :
    Memory.wfFrom lo ((k, b) :: m) = true ↔
      lo ≤ k ∧ k < 0x1000 ∧ b ≠ Memory.unlisted k ∧ Memory.wfFrom (k + 1) m = true := by
  simp only [Memory.wfFrom, Bool.and_eq_true, decide_eq_true_eq, and_assoc]
  exact Iff.rfl

theorem Memory.wf_nil : Memory.wf [] = true := rfl

/-- A canonical list may be read as canonical from any lower address. -/
theorem Memory.wfFrom_mono {lo lo' : Nat} (h : lo' ≤ lo) : {m : Memory} → Memory.wfFrom lo m = true → Memory.wfFrom lo' m = true
  | [], _ => rfl
  | (k, b) :: m, hm => by
    rw [Memory.wfFrom_cons] at hm ⊢
    exact ⟨h.trans hm.1, hm.2⟩

/-- Below the first address that a canonical list may hold, it reads as if it listed nothing. -/
theorem Memory.read_below {m : Memory} : ∀ {lo a : Nat}, Memory.wfFrom lo m = true → a < lo → Memory.read m a = Memory.unlisted a := by
  induction m with
  | nil => intros; rfl
  | cons c m ih =>
    obtain ⟨k, b⟩ := c
    intro lo a hm ha
    rw [Memory.wfFrom_cons] at hm
    rw [Memory.read_cons, if_neg (by omega), ih hm.2.2.2 (by omega)]

/-- A write leaves every other address alone. -/
theorem Memory.read_write_ne {a a' : Nat} (h : a' ≠ a) (b : Byte) (m : Memory) :
    Memory.read (Memory.write m a b) a' = Memory.read m a' := by
  induction m with
  | nil => unfold Memory.write; split <;> simp [h.symm]
  | cons c m ih =>
    obtain ⟨k, d⟩ := c
    unfold Memory.write
    split
    · split <;> simp [h.symm]
    · split
      · next hk => subst hk; split <;> simp [h.symm]
      · simp [ih]

/-- A write is what a read of the same address gives, in a canonical memory. -/
theorem Memory.read_write_self {m : Memory} : ∀ {lo : Nat} (_ : Memory.wfFrom lo m = true) (a : Nat) (b : Byte),
    Memory.read (Memory.write m a b) a = b := by
  induction m with
  | nil => intro lo _ a b; unfold Memory.write; split <;> simp_all
  | cons c m ih =>
    obtain ⟨k, d⟩ := c
    intro lo hm a b
    rw [Memory.wfFrom_cons] at hm
    unfold Memory.write
    split
    · next hk =>
      split
      · next hb => rw [Memory.read_cons, if_neg (by omega), Memory.read_below hm.2.2.2 (by omega), hb]
      · simp
    · split
      · next hk =>
        subst hk
        split
        · next hb => rw [Memory.read_below hm.2.2.2 (by omega), hb]
        · simp
      · next hk => rw [Memory.read_cons, if_neg (by omega), ih hm.2.2.2]

theorem Memory.wfFrom_write {m : Memory} : ∀ {lo a : Nat} (_ : Memory.wfFrom lo m = true) (b : Byte), lo ≤ a → a < 0x1000 →
    Memory.wfFrom lo (Memory.write m a b) = true := by
  induction m with
  | nil =>
    intro lo a _ b hlo ha
    unfold Memory.write
    split
    · rfl
    · next hb => exact (Memory.wfFrom_cons ..).2 ⟨hlo, ha, hb, rfl⟩
  | cons c m ih =>
    obtain ⟨k, d⟩ := c
    intro lo a hm b hlo ha
    have hm' := (Memory.wfFrom_cons ..).1 hm
    unfold Memory.write
    split
    · split
      · exact hm
      · next hk hb => exact (Memory.wfFrom_cons ..).2 ⟨hlo, ha, hb, (Memory.wfFrom_cons ..).2 ⟨hk, hm'.2⟩⟩
    · split
      · next hk =>
        subst hk
        split
        · exact Memory.wfFrom_mono (by omega) hm'.2.2.2
        · next hb => exact (Memory.wfFrom_cons ..).2 ⟨hlo, ha, hb, hm'.2.2.2⟩
      · exact (Memory.wfFrom_cons ..).2 ⟨hm'.1, hm'.2.1, hm'.2.2.1, ih hm'.2.2.2 b (by omega) ha⟩

/-- A write inside memory keeps the canonical form. -/
theorem Memory.wf_write {m : Memory} {a : Nat} (h : m.wf = true) (b : Byte) (ha : a < 0x1000) : (m.write a b).wf = true :=
  Memory.wfFrom_write h b (Nat.zero_le _) ha

/-! ### Blocks -/

@[simp] theorem Memory.readBlock_length (m : Memory) (base n : Nat) : (m.readBlock base n).length = n := by
  induction n generalizing base with
  | zero => rfl
  | succ n ih => simp [Memory.readBlock, ih]

theorem Memory.getElem_readBlock (m : Memory) (base n k : Nat) (h : k < (m.readBlock base n).length) :
    (m.readBlock base n)[k] = m.read (base + k) := by
  induction n generalizing base k with
  | zero => simp at h
  | succ n ih =>
    cases k with
    | zero => rfl
    | succ k =>
      simp only [Memory.readBlock, List.getElem_cons_succ]
      rw [ih, Nat.add_assoc, Nat.add_comm 1]

/-- A block write leaves every address outside the block alone. -/
theorem Memory.read_writeBlock_outside {m : Memory} {base : Nat} {bs : List Byte} {a : Nat}
    (h : ¬ (base ≤ a ∧ a < base + bs.length)) : (m.writeBlock base bs).read a = m.read a := by
  induction bs generalizing m base with
  | nil => rfl
  | cons b bs ih =>
    simp only [List.length_cons] at h
    rw [Memory.writeBlock, ih (by omega), Memory.read_write_ne (by omega)]

/-- A block write inside memory keeps the canonical form. -/
theorem Memory.wf_writeBlock {m : Memory} {base : Nat} {bs : List Byte} (h : m.wf = true)
    (hb : base + bs.length ≤ 0x1000) : (m.writeBlock base bs).wf = true := by
  induction bs generalizing m base with
  | nil => exact h
  | cons b bs ih =>
    simp only [List.length_cons] at hb
    exact ih (Memory.wf_write h b (by omega)) (by omega)

/-- After a block write the block reads as what was written. -/
theorem Memory.read_writeBlock_inside {m : Memory} {base : Nat} {bs : List Byte} (h : m.wf = true)
    (hb : base + bs.length ≤ 0x1000) {k : Nat} (hk : k < bs.length) :
    (m.writeBlock base bs).read (base + k) = bs[k] := by
  induction bs generalizing m base k with
  | nil => simp at hk
  | cons b bs ih =>
    simp only [List.length_cons] at hb hk
    have hw := Memory.wf_write h b (a := base) (by omega)
    cases k with
    | zero =>
      rw [Memory.writeBlock, Nat.add_zero, Memory.read_writeBlock_outside (by omega)]
      exact Memory.read_write_self h base b
    | succ k =>
      have e : base + (k + 1) = base + 1 + k := by omega
      rw [Memory.writeBlock, e, ih hw (by omega)]
      rfl

end Sys2Proof.Machine
end

