-- ==== Sys2Proof/Laws/Ops.lean ====
section
/-! SUPPORT. One lemma for each shared operation: everything it can do when it answers a next state, and what the values it computes are. -/

namespace Sys2Proof.Machine

/-! ### The bounds check -/

theorem checkAccess_ok {base n : Nat} (h : n = 0 ∨ base + n ≤ 0x1000) (r : Result) : checkAccess base n r = r :=
  if_neg fun hc => by have := hc.2; simp only [Config.memSize] at this; omega

theorem checkAccess_raises {base n : Nat} (h0 : n ≠ 0) (h : 0x1000 < base + n) (r : Result) :
    checkAccess base n r = .fault (.addressFault (max base 0x1000)) :=
  if_pos ⟨h0, h⟩

/-- A checked access that answers a next state was in bounds. -/
theorem checkAccess_next {base n : Nat} {r : Result} {t : State} (h : checkAccess base n r = .next t) :
    (n = 0 ∨ base + n ≤ 0x1000) ∧ r = .next t := by
  by_cases hc : n ≠ 0 ∧ 0x1000 < base + n
  · rw [checkAccess_raises hc.1 hc.2] at h; cases h
  · exact ⟨by omega, by rwa [checkAccess_ok (by omega)] at h⟩

/-- The bounds check, as one condition. -/
theorem checkAccess_eq (base n : Nat) (r : Result) :
    checkAccess base n r = if n ≠ 0 ∧ 0x1000 < base + n then .fault (.addressFault (max base 0x1000)) else r := rfl

/-! ### The call stack -/

/-- The state after a push that succeeds. -/
def State.pushed (s : State) (a : Word) (h : s.sp.val < 16) : State :=
  { s with stack := s.stack.set s.sp.val a, sp := ⟨s.sp.val + 1, by omega⟩ }

/-- The state after a pop that succeeds. -/
def State.popped (s : State) : State := { s with sp := ⟨s.sp.val - 1, by omega⟩ }

theorem State.push_ok {s : State} (h : s.sp.val < 16) (a : Word) (ok : State → Result) : s.push a ok = ok (s.pushed a h) :=
  dif_pos h

theorem State.push_full {s : State} (h : s.sp.val = 16) (a : Word) (ok : State → Result) :
    s.push a ok = .fault .stackOverflow :=
  dif_neg (by omega)

theorem State.pop_ok {s : State} (h : 0 < s.sp.val) (ok : Word → State → Result) :
    s.pop ok = ok (s.stack[s.sp.val - 1]'(by omega)) s.popped :=
  dif_pos h

theorem State.pop_empty {s : State} (h : s.sp.val = 0) (ok : Word → State → Result) : s.pop ok = .fault .stackUnderflow :=
  dif_neg (by omega)

theorem State.push_next {s t : State} {a : Word} {ok : State → Result} (h : s.push a ok = .next t) :
    ∃ hs : s.sp.val < 16, ok (s.pushed a hs) = .next t := by
  by_cases hs : s.sp.val < 16
  · exact ⟨hs, by rwa [State.push_ok hs] at h⟩
  · rw [State.push_full (by omega)] at h; cases h

theorem State.pop_next {s t : State} {ok : Word → State → Result} (h : s.pop ok = .next t) :
    ∃ hs : 0 < s.sp.val, ok (s.stack[s.sp.val - 1]'(by omega)) s.popped = .next t := by
  by_cases hs : 0 < s.sp.val
  · exact ⟨hs, by rwa [State.pop_ok hs] at h⟩
  · rw [State.pop_empty (by omega)] at h; cases h

/-! ### Keys -/

theorem withKey_ok {v : Byte} (h : v.toNat < 16) (ok : Reg → Result) : withKey v ok = ok ⟨v.toNat, h⟩ := dif_pos h

theorem withKey_raises {v : Byte} (h : 15 < v.toNat) (ok : Reg → Result) : withKey v ok = .fault (.keyIndexFault v) :=
  dif_neg (by omega)

theorem withKey_next {v : Byte} {ok : Reg → Result} {t : State} (h : withKey v ok = .next t) :
    ∃ hv : v.toNat < 16, ok ⟨v.toNat, hv⟩ = .next t := by
  by_cases hv : v.toNat < 16
  · exact ⟨hv, by rwa [withKey_ok hv] at h⟩
  · rw [withKey_raises (by omega)] at h; cases h

theorem State.leastKey_none {s : State} : s.leastKey = none ↔ ∀ k : Reg, s.pressed k = false := by
  simp [State.leastKey, List.find?_eq_none]

/-- The key found is pressed and no lower key is. -/
theorem State.leastKey_some {s : State} {k : Reg} (h : s.leastKey = some k) :
    s.pressed k = true ∧ ∀ j : Reg, j < k → s.pressed j = false := by
  unfold State.leastKey at h
  rw [List.find?_eq_some_iff_getElem] at h
  obtain ⟨hp, n, hn, hk, hlt⟩ := h
  refine ⟨hp, fun j hj => ?_⟩
  simp only [List.getElem_finRange] at hk
  have hjn : j.val < n := by
    have : k.val = n := by rw [← hk]; rfl
    have := Fin.lt_def.1 hj
    omega
  have := hlt j.val hjn
  simpa [List.getElem_finRange] using this

theorem keyByte_toNat (k : Reg) : (keyByte k).toNat = k.val := by
  simp only [keyByte, BitVec.toNat_ofNat]; omega

/-! ### Operands -/

@[simp] theorem zextByte_toNat (b : Byte) : (zextByte b).toNat = b.toNat := by
  have := b.isLt
  simp only [zextByte, BitVec.toNat_setWidth]; omega

@[simp] theorem zextAddr_toNat (nnn : Addr12) : (zextAddr nnn).toNat = nnn.toNat := by
  have := nnn.isLt
  simp only [zextAddr, BitVec.toNat_setWidth]; omega

theorem glyphAddr_toNat (v : Byte) : (glyphAddr v).toNat = 5 * v.toNat := by
  have := v.isLt
  simp only [glyphAddr, BitVec.toNat_mul, zextByte_toNat]
  show 5 * v.toNat % 65536 = _
  omega

@[simp] theorem decimalDigits_length (v : Byte) : (decimalDigits v).length = 3 := rfl

@[simp] theorem State.regsUpTo_length (s : State) (x : Reg) : (s.regsUpTo x).length = x.val + 1 := by
  have := x.isLt
  simp only [State.regsUpTo, List.length_take, Vector.length_toList]; omega

theorem State.getElem_regsUpTo (s : State) (x k : Reg) (h : k.val < (s.regsUpTo x).length) :
    (s.regsUpTo x)[k.val] = s.reg k := by
  simp [State.regsUpTo, State.reg]

/-- Loading registers from number `k` up writes those the list reaches and no other. -/
theorem getElem_loadRegs (v : Vector Byte 16) (k : Nat) (bs : List Byte) (r : Nat) (hr : r < 16) :
    (loadRegs v k bs)[r] = if h : k ≤ r ∧ r < k + bs.length then bs[r - k]'(by omega) else v[r] := by
  induction bs generalizing v k with
  | nil => simp [loadRegs]
  | cons b bs ih =>
    rw [loadRegs, ih]
    by_cases hk : k = r
    · subst hk
      rw [dif_neg (by omega), dif_pos ⟨le_refl k, by rw [List.length_cons]; omega⟩]
      simp
    · by_cases hc : k + 1 ≤ r ∧ r < k + 1 + bs.length
      · rw [dif_pos hc, dif_pos ⟨by omega, by rw [List.length_cons]; omega⟩, List.getElem_cons, dif_neg (by omega)]
        congr 1
      · rw [dif_neg hc, dif_neg (by rw [List.length_cons]; omega), Vector.getElem_setIfInBounds_ne]
        exact hk

/-- A register after a load of `n` registers from memory. -/
theorem getElem_loadRegs_readBlock (s : State) (b n : Nat) (r : Reg) :
    (loadRegs s.v 0 (s.mem.readBlock b n))[r] = if r.val < n then s.mem.read (b + r.val) else s.reg r := by
  show (loadRegs s.v 0 (s.mem.readBlock b n))[r.val] = _
  rw [getElem_loadRegs]
  split
  · next h => rw [Memory.getElem_readBlock, if_pos (by simpa using h.2)]; rfl
  · next h => rw [if_neg (by simpa using h)]; rfl

/-! ### Flags -/

theorem flagByte_toNat (c : Bool) : (flagByte c).toNat = c.toNat := by cases c <;> rfl

theorem flagByte_bit (c : Bool) : flagByte c = 0 ∨ flagByte c = 1 := by cases c <;> simp [flagByte]

theorem flagByte_eq_one {c : Bool} : flagByte c = 1 ↔ c = true := by cases c <;> simp [flagByte]

/-! ### Storing through `I` -/

theorem State.storeAtI_next {s t : State} {bs : List Byte} (h : s.storeAtI bs = .next t) :
    (bs.length = 0 ∨ s.i.toNat + bs.length ≤ 0x1000) ∧ t = (s.setMem (s.mem.writeBlock s.base bs)).next := by
  obtain ⟨hb, h⟩ := checkAccess_next h
  exact ⟨hb, by cases h; rfl⟩

theorem State.storeAtI_ok {s : State} {bs : List Byte} (h : s.i.toNat + bs.length ≤ 0x1000) :
    s.storeAtI bs = .next (s.setMem (s.mem.writeBlock s.base bs)).next :=
  checkAccess_ok (.inr h) _

/-! ### Timers -/

theorem countDown_toNat (t : Byte) : (countDown t).toNat = t.toNat - 1 := by
  unfold countDown
  split
  · next h => subst h; rfl
  · next h =>
    have h0 : t.toNat ≠ 0 := fun e => h (BitVec.eq_of_toNat_eq e)
    have := t.isLt
    rw [BitVec.toNat_sub]; simp; omega

/-! ### The display -/

@[simp] theorem cell_flipCell (d : Display) (px qx : Fin 64) (py qy : Fin 32) :
    cell (flipCell d px py) qx qy = (cell d qx qy ^^ (decide (qx = px) && decide (qy = py))) := by
  by_cases hy : qy = py
  · subst hy
    simp only [cell, flipCell, Fin.getElem_fin, Vector.getElem_set_self, BitVec.getLsbD_xor, BitVec.getLsbD_twoPow,
      px.isLt, decide_true, Bool.true_and, Bool.and_true, Fin.ext_iff, eq_comm]
  · have hy' : py.val ≠ qy.val := fun h => hy (Fin.ext h.symm)
    simp [cell, flipCell, hy, Vector.getElem_set_ne _ _ hy']

@[simp] theorem drawPixel_cell (bit : Bool) (px qx : Fin 64) (py qy : Fin 32) (acc : Display × Bool) :
    cell (drawPixel bit px py acc).1 qx qy = (cell acc.1 qx qy ^^ (bit && (decide (qx = px) && decide (qy = py)))) := by
  cases bit <;> simp [drawPixel]

@[simp] theorem drawPixel_hit (bit : Bool) (px : Fin 64) (py : Fin 32) (acc : Display × Bool) :
    (drawPixel bit px py acc).2 = (acc.2 || (bit && cell acc.1 px py)) := by
  cases bit <;> simp [drawPixel]

/-- A clear display: every cell is 0. -/
@[simp] theorem cell_clear (px : Fin 64) (py : Fin 32) : cell (Vector.replicate 32 0) px py = false := by
  simp [cell]

end Sys2Proof.Machine
end

