-- ==== Sys2Proof/Laws/Display.lean ====
section
/-! SUPPORT. What drawing a sprite does to one cell and to the collision: pixel, row, rows, the whole sprite. A sprite has at most 8 columns and at most 32 rows, so it reaches no cell twice. -/

namespace Sys2Proof.Machine

/-- Two displays with the same cells are the same. -/
theorem display_ext {d e : Display} (h : ∀ px py, cell d px py = cell e px py) : d = e := by
  apply Vector.ext; intro i hi
  apply BitVec.eq_of_getLsbD_eq; intro j hj
  exact h ⟨j, hj⟩ ⟨i, hi⟩

/-- A column is `c` to the right of another exactly when the distance between them, round the edge, is `c`. -/
theorem column_eq_add {px x0 : Fin 64} {c : Nat} (h : c < 64) : px = x0 + Fin.ofNat 64 c ↔ (px - x0).val = c := by
  rw [Fin.ext_iff, Fin.val_add, Fin.sub_def]; simp; omega

/-- A row is `r` below another exactly when the distance between them, round the edge, is `r`. -/
theorem row_eq_add {py y0 : Fin 32} {r : Nat} (h : r < 32) : py = y0 + Fin.ofNat 32 r ↔ (py - y0).val = r := by
  rw [Fin.ext_iff, Fin.val_add, Fin.sub_def]; simp; omega

/-- The first `k` pixels of a row. -/
def drawPixels (b : Byte) (x0 : Fin 64) (py : Fin 32) (k : Nat) (acc : Display × Bool) : Display × Bool :=
  (List.range k).foldl (fun a c => drawPixel (b.getLsbD (7 - c)) (x0 + Fin.ofNat 64 c) py a) acc

theorem drawRow_eq (b : Byte) (x0 : Fin 64) (py : Fin 32) (acc : Display × Bool) :
    drawRow b x0 py acc = drawPixels b x0 py 8 acc := rfl

theorem drawPixels_succ (b : Byte) (x0 : Fin 64) (py : Fin 32) (k : Nat) (acc : Display × Bool) :
    drawPixels b x0 py (k + 1) acc =
      drawPixel (b.getLsbD (7 - k)) (x0 + Fin.ofNat 64 k) py (drawPixels b x0 py k acc) := by
  simp [drawPixels, List.range_succ]

theorem cell_drawPixels (b : Byte) (x0 : Fin 64) (py : Fin 32) {k : Nat} (hk : k ≤ 8) (acc : Display × Bool)
    (qx : Fin 64) (qy : Fin 32) :
    cell (drawPixels b x0 py k acc).1 qx qy =
      (cell acc.1 qx qy ^^ (decide (qy = py) && decide ((qx - x0).val < k) && b.getLsbD (7 - (qx - x0).val))) := by
  induction k with
  | zero => simp [drawPixels]
  | succ k ih =>
    rw [drawPixels_succ, drawPixel_cell, ih (by omega)]
    simp only [column_eq_add (px := qx) (x0 := x0) (c := k) (by omega)]
    by_cases h : (qx - x0).val = k
    · simp [h]; by_cases h2 : qy = py <;> simp [h2]
    · have : (qx - x0).val < k + 1 ↔ (qx - x0).val < k := by omega
      simp only [h, this]; simp

theorem hit_drawPixels (b : Byte) (x0 : Fin 64) (py : Fin 32) {k : Nat} (hk : k ≤ 8) (acc : Display × Bool) :
    (drawPixels b x0 py k acc).2 = true ↔ acc.2 = true ∨ ∃ qx : Fin 64,
      (qx - x0).val < k ∧ b.getLsbD (7 - (qx - x0).val) = true ∧ cell acc.1 qx py = true := by
  induction k with
  | zero => simp [drawPixels]
  | succ k ih =>
    have hv : ((x0 + Fin.ofNat 64 k) - x0).val = k := (column_eq_add (by omega)).1 rfl
    rw [drawPixels_succ, drawPixel_hit, Bool.or_eq_true, ih (by omega), cell_drawPixels _ _ _ (by omega)]
    constructor
    · rintro ((h | ⟨q, h1, h2⟩) | h)
      · exact .inl h
      · exact .inr ⟨q, by omega, h2⟩
      · rw [hv] at h
        simp at h
        exact .inr ⟨x0 + Fin.ofNat 64 k, by omega, by rw [hv]; exact h.1, h.2⟩
    · rintro (h | ⟨q, h1, h2, h3⟩)
      · exact .inl (.inl h)
      · by_cases h : (q - x0).val = k
        · have := (column_eq_add (px := q) (x0 := x0) (c := k) (by omega)).2 h
          right; rw [hv]; rw [h] at h2; subst this; rw [h2]; simpa using h3
        · left; right; exact ⟨q, by omega, h2, h3⟩

/-- The bit that the rows of a list, drawn from row number `r` down, put on a cell. -/
def rowsBit (x0 : Fin 64) (y0 : Fin 32) (r : Nat) (bs : List Byte) (qx : Fin 64) (qy : Fin 32) : Bool :=
  decide (r ≤ (qy - y0).val) && decide ((qy - y0).val < r + bs.length) && decide ((qx - x0).val < 8) &&
    (bs[(qy - y0).val - r]?.getD 0).getLsbD (7 - (qx - x0).val)

theorem rowsBit_eq_true {x0 : Fin 64} {y0 : Fin 32} {r : Nat} {bs : List Byte} {qx : Fin 64} {qy : Fin 32} :
    rowsBit x0 y0 r bs qx qy = true ↔ r ≤ (qy - y0).val ∧ (qy - y0).val < r + bs.length ∧ (qx - x0).val < 8 ∧
      (bs[(qy - y0).val - r]?.getD 0).getLsbD (7 - (qx - x0).val) = true := by
  simp only [rowsBit, Bool.and_eq_true, decide_eq_true_eq, and_assoc]

/-- Every cell is its old value exclusive-or the bit on it. -/
theorem cell_drawRows {x0 : Fin 64} {y0 : Fin 32} {bs : List Byte} : ∀ {r : Nat} {acc : Display × Bool},
    r + bs.length ≤ 32 → ∀ (qx : Fin 64) (qy : Fin 32),
    cell (drawRows x0 y0 r bs acc).1 qx qy = (cell acc.1 qx qy ^^ rowsBit x0 y0 r bs qx qy) := by
  induction bs with
  | nil => intro r acc hr qx qy; simp [drawRows, rowsBit]
  | cons b bs ih =>
    intro r acc hr qx qy
    rw [List.length_cons] at hr
    rw [drawRows, ih (by omega), drawRow_eq, cell_drawPixels _ _ _ (le_refl 8)]
    simp only [row_eq_add (py := qy) (y0 := y0) (r := r) (by omega), rowsBit, List.length_cons]
    generalize (qy - y0).val = d
    by_cases h : d = r
    · subst h; simp
    · rcases lt_or_gt_of_ne h with h' | h'
      · have h1 : ¬ r + 1 ≤ d := by omega
        have h2 : ¬ r ≤ d := by omega
        simp [h, h1, h2]
      · have h1 : r + 1 ≤ d := by omega
        have h2 : r ≤ d := by omega
        have h3 : d - r = (d - (r + 1)) + 1 := by omega
        have h4 : r + 1 + bs.length = r + (bs.length + 1) := by omega
        rw [h3, h4]
        simp [h, h1, h2]

/-- A collision is a cell that held 1 with a 1 bit on it. -/
theorem hit_drawRows {x0 : Fin 64} {y0 : Fin 32} {bs : List Byte} : ∀ {r : Nat} {acc : Display × Bool},
    r + bs.length ≤ 32 → ((drawRows x0 y0 r bs acc).2 = true ↔ acc.2 = true ∨ ∃ (qx : Fin 64) (qy : Fin 32),
      cell acc.1 qx qy = true ∧ rowsBit x0 y0 r bs qx qy = true) := by
  induction bs with
  | nil => intro r acc hr; simp [drawRows, rowsBit]
  | cons b bs ih =>
    intro r acc hr
    rw [List.length_cons] at hr
    rw [drawRows, ih (by omega), drawRow_eq, hit_drawPixels _ _ _ (le_refl 8)]
    have hv : ((y0 + Fin.ofNat 32 r) - y0).val = r := (row_eq_add (by omega)).1 rfl
    have other (qx : Fin 64) {qy : Fin 32} (h : (qy - y0).val ≠ r) :
        cell (drawPixels b x0 (y0 + Fin.ofNat 32 r) 8 acc).1 qx qy = cell acc.1 qx qy := by
      rw [cell_drawPixels _ _ _ (le_refl 8)]
      simp only [(row_eq_add (py := qy) (y0 := y0) (r := r) (by omega)), h, decide_false, Bool.false_and, Bool.xor_false]
    simp only [rowsBit_eq_true, List.length_cons]
    constructor
    · rintro ((h | ⟨q, h1, h2, h3⟩) | ⟨qx, qy, h1, h2, h3, h4, h5⟩)
      · exact .inl h
      · right; refine ⟨q, _, h3, ?_⟩; rw [hv]; simp [h1, h2]
      · rw [other qx (by omega)] at h1
        have e : (qy - y0).val - r = ((qy - y0).val - (r + 1)) + 1 := by omega
        right; exact ⟨qx, qy, h1, by omega, by omega, h4, by rw [e]; exact h5⟩
    · rintro (h | ⟨qx, qy, h1, h2, h3, h4, h5⟩)
      · exact .inl (.inl h)
      · by_cases hq : (qy - y0).val = r
        · have e := (row_eq_add (py := qy) (y0 := y0) (r := r) (by omega)).2 hq
          rw [hq] at h5
          left; right; exact ⟨qx, h4, by simpa using h5, by rw [← e]; exact h1⟩
        · have e : (qy - y0).val - r = ((qy - y0).val - (r + 1)) + 1 := by omega
          rw [e] at h5
          right; exact ⟨qx, qy, by rw [other qx hq]; exact h1, by omega, by omega, h4, h5⟩

/-- The rows of a sprite in memory put on a cell the bit that `spriteBit` says. -/
theorem rowsBit_sprite (s : State) (x y : Reg) (n : Nat) (px : Fin 64) (py : Fin 32) :
    rowsBit (s.column x) (s.row y) 0 (s.mem.readBlock s.base n) px py = spriteBit s x y n px py := by
  unfold rowsBit spriteBit
  rw [Memory.readBlock_length]
  generalize (py - s.row y).val = d
  by_cases h : d < n
  · have : (s.mem.readBlock s.base n)[d - 0]? = some (s.mem.read (s.base + d)) := by
      rw [List.getElem?_eq_getElem (by simpa using h), Memory.getElem_readBlock]; simp
    rw [this]; simp [h]
  · simp [h]

theorem cell_drawn (s : State) (x y : Reg) (n : Fin 16) (px : Fin 64) (py : Fin 32) :
    cell (s.drawn x y n.val).1 px py = (cell s.disp px py ^^ spriteBit s x y n.val px py) := by
  unfold State.drawn
  rw [cell_drawRows (by simp; omega), rowsBit_sprite]

theorem hit_drawn (s : State) (x y : Reg) (n : Fin 16) :
    (s.drawn x y n.val).2 = true ↔ ∃ px py, cell s.disp px py = true ∧ spriteBit s x y n.val px py = true := by
  unfold State.drawn
  rw [hit_drawRows (by simp; omega)]
  simp only [rowsBit_sprite]; simp

end Sys2Proof.Machine
end

