-- ==== Sys2Proof/Laws/PerInstr.lean ====
section
/-! SUPPORT. Statements about every instruction as syntax, proved constructor by constructor. The family EncodeMatchesTable: the word the encoder gives is selected by the row of spec/opcode_table.json that the instruction stands for. -/

namespace Sys2Proof.Laws

theorem packNnn_and_family (p : BitVec 4) (nnn : Addr12) : packNnn p nnn &&& 0xF000 = packNnn p 0 := by
  have h : (p ++ nnn) &&& (0xF#4 ++ 0#12) = p ++ 0#12 := by
    rw [BitVec.and_append, show (0xF#4 : BitVec 4) = BitVec.allOnes 4 from rfl, BitVec.and_allOnes, BitVec.and_zero]
  exact h

theorem packXkk_and_family (p : BitVec 4) (x : Reg) (kk : Byte) : packXkk p x kk &&& 0xF000 = packXkk p 0 0 := by
  have h : (p ++ regBits x ++ kk) &&& (0xF#4 ++ 0#4 ++ 0#8) = p ++ 0#4 ++ 0#8 := by
    rw [BitVec.and_append, BitVec.and_append, show (0xF#4 : BitVec 4) = BitVec.allOnes 4 from rfl, BitVec.and_allOnes,
      BitVec.and_zero, BitVec.and_zero]
  exact h

theorem packXkk_and_code (p : BitVec 4) (x : Reg) (kk : Byte) : packXkk p x kk &&& 0xF0FF = packXkk p 0 kk := by
  have h : (p ++ regBits x ++ kk) &&& (0xF#4 ++ 0#4 ++ 0xFF#8) = p ++ 0#4 ++ kk := by
    rw [BitVec.and_append, BitVec.and_append, show (0xF#4 : BitVec 4) = BitVec.allOnes 4 from rfl, BitVec.and_allOnes,
      show (0xFF#8 : BitVec 8) = BitVec.allOnes 8 from rfl, BitVec.and_allOnes, BitVec.and_zero]
  exact h

theorem packXyn_and_family (p : BitVec 4) (x y : Reg) (n : Fin 16) : packXyn p x y n &&& 0xF000 = packXyn p 0 0 0 := by
  have h : (p ++ regBits x ++ regBits y ++ regBits n) &&& (0xF#4 ++ 0#4 ++ 0#4 ++ 0#4) = p ++ 0#4 ++ 0#4 ++ 0#4 := by
    rw [BitVec.and_append, BitVec.and_append, BitVec.and_append, show (0xF#4 : BitVec 4) = BitVec.allOnes 4 from rfl,
      BitVec.and_allOnes, BitVec.and_zero, BitVec.and_zero, BitVec.and_zero]
  exact h

theorem packXyn_and_code (p : BitVec 4) (x y : Reg) (n : Fin 16) : packXyn p x y n &&& 0xF00F = packXyn p 0 0 n := by
  have h : (p ++ regBits x ++ regBits y ++ regBits n) &&& (0xF#4 ++ 0#4 ++ 0#4 ++ 0xF#4) = p ++ 0#4 ++ 0#4 ++ regBits n := by
    rw [BitVec.and_append, BitVec.and_append, BitVec.and_append, show (0xF#4 : BitVec 4) = BitVec.allOnes 4 from rfl,
      BitVec.and_allOnes, BitVec.and_zero, BitVec.and_zero, BitVec.and_allOnes]
  exact h

namespace EncodeMatchesTable

/-- The mask of the row of spec/opcode_table.json that an instruction stands for (R66). -/
def mask : Instr → Word
  | .sys _ => 0xF000
  | .cls => 0xFFFF
  | .ret => 0xFFFF
  | .jp _ => 0xF000
  | .call _ => 0xF000
  | .seImm _ _ => 0xF000
  | .sneImm _ _ => 0xF000
  | .seReg _ _ => 0xF000
  | .ldImm _ _ => 0xF000
  | .addImm _ _ => 0xF000
  | .ldReg _ _ => 0xF00F
  | .orReg _ _ => 0xF00F
  | .andReg _ _ => 0xF00F
  | .xorReg _ _ => 0xF00F
  | .addReg _ _ => 0xF00F
  | .sub _ _ => 0xF00F
  | .shr _ => 0xF00F
  | .subn _ _ => 0xF00F
  | .shl _ => 0xF00F
  | .sneReg _ _ => 0xF000
  | .ldI _ => 0xF000
  | .jpV0 _ => 0xF000
  | .rnd _ _ => 0xF000
  | .drw _ _ _ => 0xF000
  | .skp _ => 0xF0FF
  | .sknp _ => 0xF0FF
  | .ldVxDt _ => 0xF0FF
  | .ldVxK _ => 0xF0FF
  | .ldDtVx _ => 0xF0FF
  | .ldStVx _ => 0xF0FF
  | .addI _ => 0xF0FF
  | .ldF _ => 0xF0FF
  | .ldB _ => 0xF0FF
  | .ldMemVx _ => 0xF0FF
  | .ldVxMem _ => 0xF0FF

/-- The match of the row of spec/opcode_table.json that an instruction stands for (R66). -/
def pattern : Instr → Word
  | .sys _ => 0x0000
  | .cls => 0x00E0
  | .ret => 0x00EE
  | .jp _ => 0x1000
  | .call _ => 0x2000
  | .seImm _ _ => 0x3000
  | .sneImm _ _ => 0x4000
  | .seReg _ _ => 0x5000
  | .ldImm _ _ => 0x6000
  | .addImm _ _ => 0x7000
  | .ldReg _ _ => 0x8000
  | .orReg _ _ => 0x8001
  | .andReg _ _ => 0x8002
  | .xorReg _ _ => 0x8003
  | .addReg _ _ => 0x8004
  | .sub _ _ => 0x8005
  | .shr _ => 0x8006
  | .subn _ _ => 0x8007
  | .shl _ => 0x800E
  | .sneReg _ _ => 0x9000
  | .ldI _ => 0xA000
  | .jpV0 _ => 0xB000
  | .rnd _ _ => 0xC000
  | .drw _ _ _ => 0xD000
  | .skp _ => 0xE09E
  | .sknp _ => 0xE0A1
  | .ldVxDt _ => 0xF007
  | .ldVxK _ => 0xF00A
  | .ldDtVx _ => 0xF015
  | .ldStVx _ => 0xF018
  | .addI _ => 0xF01E
  | .ldF _ => 0xF029
  | .ldB _ => 0xF033
  | .ldMemVx _ => 0xF055
  | .ldVxMem _ => 0xF065

/-- The opcode of an instruction selects its row: `op & mask = match` (R66). -/
def Statement (i : Instr) : Prop := encode i &&& mask i = pattern i

theorem sys (nnn : Addr12) : Statement (.sys nnn) := packNnn_and_family 0x0 nnn
theorem cls : Statement (.cls) := rfl
theorem ret : Statement (.ret) := rfl
theorem jp (nnn : Addr12) : Statement (.jp nnn) := packNnn_and_family 0x1 nnn
theorem call (nnn : Addr12) : Statement (.call nnn) := packNnn_and_family 0x2 nnn
theorem seImm (x : Reg) (kk : Byte) : Statement (.seImm x kk) := packXkk_and_family 0x3 x kk
theorem sneImm (x : Reg) (kk : Byte) : Statement (.sneImm x kk) := packXkk_and_family 0x4 x kk
theorem seReg (x y : Reg) : Statement (.seReg x y) := packXyn_and_family 0x5 x y 0x0
theorem ldImm (x : Reg) (kk : Byte) : Statement (.ldImm x kk) := packXkk_and_family 0x6 x kk
theorem addImm (x : Reg) (kk : Byte) : Statement (.addImm x kk) := packXkk_and_family 0x7 x kk
theorem ldReg (x y : Reg) : Statement (.ldReg x y) := packXyn_and_code 0x8 x y 0x0
theorem orReg (x y : Reg) : Statement (.orReg x y) := packXyn_and_code 0x8 x y 0x1
theorem andReg (x y : Reg) : Statement (.andReg x y) := packXyn_and_code 0x8 x y 0x2
theorem xorReg (x y : Reg) : Statement (.xorReg x y) := packXyn_and_code 0x8 x y 0x3
theorem addReg (x y : Reg) : Statement (.addReg x y) := packXyn_and_code 0x8 x y 0x4
theorem sub (x y : Reg) : Statement (.sub x y) := packXyn_and_code 0x8 x y 0x5
theorem shr (x : Reg) : Statement (.shr x) := packXyn_and_code 0x8 x 0 0x6
theorem subn (x y : Reg) : Statement (.subn x y) := packXyn_and_code 0x8 x y 0x7
theorem shl (x : Reg) : Statement (.shl x) := packXyn_and_code 0x8 x 0 0xE
theorem sneReg (x y : Reg) : Statement (.sneReg x y) := packXyn_and_family 0x9 x y 0x0
theorem ldI (nnn : Addr12) : Statement (.ldI nnn) := packNnn_and_family 0xA nnn
theorem jpV0 (nnn : Addr12) : Statement (.jpV0 nnn) := packNnn_and_family 0xB nnn
theorem rnd (x : Reg) (kk : Byte) : Statement (.rnd x kk) := packXkk_and_family 0xC x kk
theorem drw (x y : Reg) (n : Fin 16) : Statement (.drw x y n) := packXyn_and_family 0xD x y n
theorem skp (x : Reg) : Statement (.skp x) := packXkk_and_code 0xE x 0x9E
theorem sknp (x : Reg) : Statement (.sknp x) := packXkk_and_code 0xE x 0xA1
theorem ldVxDt (x : Reg) : Statement (.ldVxDt x) := packXkk_and_code 0xF x 0x07
theorem ldVxK (x : Reg) : Statement (.ldVxK x) := packXkk_and_code 0xF x 0x0A
theorem ldDtVx (x : Reg) : Statement (.ldDtVx x) := packXkk_and_code 0xF x 0x15
theorem ldStVx (x : Reg) : Statement (.ldStVx x) := packXkk_and_code 0xF x 0x18
theorem addI (x : Reg) : Statement (.addI x) := packXkk_and_code 0xF x 0x1E
theorem ldF (x : Reg) : Statement (.ldF x) := packXkk_and_code 0xF x 0x29
theorem ldB (x : Reg) : Statement (.ldB x) := packXkk_and_code 0xF x 0x33
theorem ldMemVx (x : Reg) : Statement (.ldMemVx x) := packXkk_and_code 0xF x 0x55
theorem ldVxMem (x : Reg) : Statement (.ldVxMem x) := packXkk_and_code 0xF x 0x65

end EncodeMatchesTable

end Sys2Proof.Laws
end

