-- ==== Sys2Proof/Laws/Step.lean ====
section
/-! SUPPORT. What a STEP, and each instruction that can raise an error, can do when it answers a next state: the guard it passed and the state it gives. -/

namespace Sys2Proof.Machine

/-- The fetch reads the opcode at `PC`. -/
theorem fetchWord_eq {s : State} {op : Word} (h : OpcodeAt s op) : s.fetchWord = op := by
  apply BitVec.eq_of_toNat_eq; rw [State.fetchWord, composeWord_toNat]; exact h.symm

theorem opcodeAt_fetchWord (s : State) : OpcodeAt s s.fetchWord := by
  rw [OpcodeAt, State.fetchWord, composeWord_toNat]; rfl

/-- A STEP whose fetch is inside memory decodes and executes the opcode at `PC`. -/
theorem step_eq_runWord {s : State} {op : Word} (hp : s.pc.toNat ≤ 0xFFE) (h : OpcodeAt s op) :
    step s = runWord op s := by
  unfold step State.fetch; rw [checkAccess_ok (by omega), fetchWord_eq h]

/-- A STEP that answers a next state fetched inside memory and executed the instruction it decoded. -/
theorem step_next {s t : State} (h : step s = .next t) :
    s.pc.toNat ≤ 0xFFE ∧ ∃ i, decode s.fetchWord = .ok i ∧ exec i s = .next t := by
  obtain ⟨hb, h⟩ := checkAccess_next h
  refine ⟨by omega, ?_⟩
  unfold runWord at h
  split at h
  · next i hi => exact ⟨i, hi, h⟩
  · cases h

/-- STEP on a given draw, likewise. -/
theorem opStep_next {d : Byte} {s t : State} (h : opStep d s = .next t) :
    s.pc.toNat ≤ 0xFFE ∧ ∃ i, decode s.fetchWord = .ok i ∧ execOn d i s = .next t := by
  obtain ⟨hb, h⟩ := checkAccess_next h
  refine ⟨by omega, ?_⟩
  split at h
  · next i hi => exact ⟨i, hi, h⟩
  · cases h

/-- Only `RND` looks at the draw. -/
theorem execOn_eq_exec {i : Instr} (h : ∀ x kk, i ≠ .rnd x kk) (d : Byte) (s : State) : execOn d i s = exec i s := by
  cases i <;> first | rfl | exact absurd rfl (h _ _)

/-- `RND` on a draw is what loading the masked draw as an immediate is, the count of draws apart. -/
theorem execOn_rnd (d : Byte) (x : Reg) (kk : Byte) (s : State) :
    execOn d (.rnd x kk) s = .next { (s.setReg x (d &&& kk)).next with draws := s.draws + 1 } := rfl

theorem execRet_next {s t : State} (h : execRet s = .next t) :
    ∃ hs : 0 < s.sp.val, t = s.popped.jump (s.stack[s.sp.val - 1]'(by omega)) := by
  obtain ⟨hs, h⟩ := State.pop_next h
  exact ⟨hs, by cases h; rfl⟩

theorem execCall_next {nnn : Addr12} {s t : State} (h : execCall nnn s = .next t) :
    ∃ hs : s.sp.val < 16, t = (s.pushed (s.pc + 2) hs).jump (zextAddr nnn) := by
  obtain ⟨hs, h⟩ := State.push_next h
  exact ⟨hs, by cases h; rfl⟩

theorem execSkp_next {x : Reg} {s t : State} (h : execSkp x s = .next t) :
    ∃ hv : (s.reg x).toNat < 16, t = s.skipIf (s.pressed ⟨(s.reg x).toNat, hv⟩) := by
  obtain ⟨hv, h⟩ := withKey_next h
  exact ⟨hv, by cases h; rfl⟩

theorem execSknp_next {x : Reg} {s t : State} (h : execSknp x s = .next t) :
    ∃ hv : (s.reg x).toNat < 16, t = s.skipIf (!s.pressed ⟨(s.reg x).toNat, hv⟩) := by
  obtain ⟨hv, h⟩ := withKey_next h
  exact ⟨hv, by cases h; rfl⟩

theorem execLdVxK_next {x : Reg} {s t : State} (h : execLdVxK x s = .next t) :
    (s.leastKey = none ∧ t = s) ∨ ∃ k, s.leastKey = some k ∧ t = (s.setReg x (keyByte k)).next := by
  unfold execLdVxK at h
  split at h
  · next hk => exact .inl ⟨hk, by cases h; rfl⟩
  · next k hk => exact .inr ⟨k, hk, by cases h; rfl⟩

theorem execLdB_next {x : Reg} {s t : State} (h : execLdB x s = .next t) :
    s.i.toNat + 3 ≤ 0x1000 ∧ t = (s.setMem (s.mem.writeBlock s.base (decimalDigits (s.reg x)))).next := by
  obtain ⟨hb, h⟩ := State.storeAtI_next h
  simp only [decimalDigits_length] at hb
  exact ⟨by omega, h⟩

theorem execLdMemVx_next {x : Reg} {s t : State} (h : execLdMemVx x s = .next t) :
    s.i.toNat + (x.val + 1) ≤ 0x1000 ∧ t = (s.setMem (s.mem.writeBlock s.base (s.regsUpTo x))).next := by
  obtain ⟨hb, h⟩ := State.storeAtI_next h
  simp only [State.regsUpTo_length] at hb
  exact ⟨by omega, h⟩

theorem execLdVxMem_next {x : Reg} {s t : State} (h : execLdVxMem x s = .next t) :
    s.i.toNat + (x.val + 1) ≤ 0x1000 ∧
      t = (s.setRegs (loadRegs s.v 0 (s.mem.readBlock s.base (x.val + 1)))).next := by
  obtain ⟨hb, h⟩ := checkAccess_next h
  simp only [State.base_eq] at hb
  exact ⟨by omega, by cases h; rfl⟩

theorem execDrw_next {x y : Reg} {n : Fin 16} {s t : State} (h : execDrw x y n s = .next t) :
    (n.val = 0 ∨ s.i.toNat + n.val ≤ 0x1000) ∧
      t = ((s.setDisp (s.drawn x y n.val).1).setFlag (flagByte (s.drawn x y n.val).2)).next := by
  obtain ⟨hb, h⟩ := checkAccess_next h
  exact ⟨hb, by cases h; rfl⟩

end Sys2Proof.Machine
end

