-- ==== Sys2Proof/Tests/Slice0.lean ====
section
/-! SUPPORT. Small tests of one STEP, decode or host operation each, their expected results taken from spec/95_test_vectors.md (the vector's name stands with each) or from the encodings of 30_encoding.md; and for every obligation that has hypotheses a witness: a state and operands that meet them all. -/

namespace Sys2Proof.Tests

open Sys2Proof.Machine

/-! ### Helpers -/

/-- The outcome is a next state of which the test holds. -/
def ok (r : Result) (p : State → Bool) : Bool :=
  match r with
  | .next t => p t
  | .fault _ => false
  | .refused _ => false

/-- The outcome is that error. -/
def raises (r : Result) (e : Fault) : Bool :=
  match r with
  | .next _ => false
  | .fault f => f == e
  | .refused _ => false

/-- One STEP of an opcode placed at `PC`. -/
def run (w : Nat) (s : State) : Result := step (s.withFetchWord 16 w)

/-- The state after reset with registers, a byte list from 0x300 up, or an index register. -/
def v1 (a : Byte) : State := State.reset.setReg 1 a
def v12 (a b : Byte) : State := (v1 a).setReg 2 b
def atI (a : Word) : State := State.reset.setI a
def mem300 (bs : List Byte) : State := (atI 0x300).setMem (Memory.writeBlock [] 0x300 bs)
def keys (ks : List Reg) : State := ks.foldl (fun s k => opSetKey k true s) State.reset
def depth (n : Fin 17) (a : Word) : State := { State.reset with sp := n, stack := Vector.replicate 16 a }

/-! ### Well-formedness: the one check, both of its words -/

theorem test_sys_0E0_ill_formed : ¬ WellFormed (.sys 0x0E0) := by decide
theorem test_sys_0EE_ill_formed : ¬ WellFormed (.sys 0x0EE) := by decide
theorem test_sys_0E1_well_formed : WellFormed (.sys 0x0E1) := by decide

/-! ### Decoding, words written out bit by bit from the patterns of R66 -/

theorem test_decode_family_0 :
    decode 0b0000111111111111 = .ok (.sys 0xFFF) ∧ decode 0b0000000011100000 = .ok .cls ∧
    decode 0b0000000011101110 = .ok .ret := by decide
theorem test_decode_jumps :
    decode 0b0001001000110100 = .ok (.jp 0x234) ∧ decode 0b0010001100000000 = .ok (.call 0x300) ∧
    decode 0b1011001000010000 = .ok (.jpV0 0x210) := by decide
theorem test_decode_skips :
    decode 0b0011101001111111 = .ok (.seImm 10 0x7F) ∧ decode 0b0100001000000101 = .ok (.sneImm 2 0x05) ∧
    decode 0b0101000100100000 = .ok (.seReg 1 2) ∧ decode 0b1001101010110000 = .ok (.sneReg 10 11) := by decide
theorem test_decode_loads :
    decode 0b0110101000101011 = .ok (.ldImm 10 0x2B) ∧ decode 0b0111000111111111 = .ok (.addImm 1 0xFF) ∧
    decode 0b1010001100000000 = .ok (.ldI 0x300) ∧ decode 0b1100001100001111 = .ok (.rnd 3 0x0F) := by decide
theorem test_decode_family_8 :
    decode 0b1000000100100000 = .ok (.ldReg 1 2) ∧ decode 0b1000000100100001 = .ok (.orReg 1 2) ∧
    decode 0b1000000100100010 = .ok (.andReg 1 2) ∧ decode 0b1000000100100011 = .ok (.xorReg 1 2) ∧
    decode 0b1000000100100100 = .ok (.addReg 1 2) ∧ decode 0b1000000100100101 = .ok (.sub 1 2) ∧
    decode 0b1000000100100110 = .ok (.shr 1) ∧ decode 0b1000000100100111 = .ok (.subn 1 2) ∧
    decode 0b1000000100101110 = .ok (.shl 1) := by decide
theorem test_decode_display_and_keys :
    decode 0b1101000100100101 = .ok (.drw 1 2 5) ∧ decode 0b1110000110011110 = .ok (.skp 1) ∧
    decode 0b1110000110100001 = .ok (.sknp 1) := by decide
theorem test_decode_family_F :
    decode 0b1111000100000111 = .ok (.ldVxDt 1) ∧ decode 0b1111000100001010 = .ok (.ldVxK 1) ∧
    decode 0b1111000100010101 = .ok (.ldDtVx 1) ∧ decode 0b1111000100011000 = .ok (.ldStVx 1) ∧
    decode 0b1111000100011110 = .ok (.addI 1) ∧ decode 0b1111000100101001 = .ok (.ldF 1) ∧
    decode 0b1111000100110011 = .ok (.ldB 1) ∧ decode 0b1111000101010101 = .ok (.ldMemVx 1) ∧
    decode 0b1111000101100101 = .ok (.ldVxMem 1) := by decide
theorem test_decode_ignored_nibbles :
    decode 0x5121 = .ok (.seReg 1 2) ∧ decode 0x9AB7 = .ok (.sneReg 10 11) ∧ decode 0x8106 = .ok (.shr 1) ∧
    decode 0x81FE = .ok (.shl 1) := by decide
theorem test_decode_unknown :
    decode 0x812F = .error (.unknownOpcode 0x812F) ∧ decode 0xE1A0 = .error (.unknownOpcode 0xE1A0) ∧
    decode 0xF185 = .error (.unknownOpcode 0xF185) := by decide
theorem test_decode_table_word : decodeTableWord 16 0x8124 = some (.addReg 1 2) ∧ decodeTableWord 16 0x8008 = none := by decide
theorem test_decode_bytes :
    decodeBytes [0x12, 0x34, 0x56] = .ok (.jp 0x234, [0x56]) ∧ decodeBytes [0x12] = .error .truncated := by decide

/-! ### Flow (FL, S6 to S9) -/

theorem test_FL2_sys : ok (run 0x0FFF State.reset) (fun t => t.pc == 0x202 && t.sp == 0) = true := by decide
theorem test_FL3_jp : ok (run 0x1ABC State.reset) (fun t => t.pc == 0xABC) = true := by decide
theorem test_FL6_advance_past_the_end :
    ok (run 0x0000 (State.reset.jump 0xFFE)) (fun t => t.pc == 0x1000) = true := by decide
theorem test_FL8_fetch_fault : raises (step (State.reset.jump 0x10FE)) (.addressFault 0x10FE) = true := by decide
theorem test_FL5_fetch_fault_second_byte : raises (step (State.reset.jump 0xFFF)) (.addressFault 0x1000) = true := by decide
theorem test_FL8_jp_v0 : ok (run 0xBFFF (State.reset.setReg 0 0xFF)) (fun t => t.pc == 0x10FE) = true := by decide
theorem test_S6_call :
    ok (run 0x2300 State.reset) (fun t => t.pc == 0x300 && t.sp == 1 && t.stack[0] == 0x202) = true := by decide
theorem test_FL11_call_overflow : raises (run 0x2300 (depth 16 0)) .stackOverflow = true := by decide
theorem test_FL12_ret : ok (run 0x00EE (depth 2 0x456)) (fun t => t.pc == 0x456 && t.sp == 1) = true := by decide
theorem test_S9_ret_underflow : raises (run 0x00EE State.reset) .stackUnderflow = true := by decide
theorem test_S13_unknown : raises (run 0x8008 State.reset) (.unknownOpcode 0x8008) = true := by decide
theorem test_FL14_odd_pc :
    ok (run 0x6A07 (State.reset.jump 0x203)) (fun t => t.reg 10 == 7 && t.pc == 0x205) = true := by decide

/-! ### Compare and skip (SK) -/

theorem test_SK1_se : ok (run 0x3100 State.reset) (fun t => t.pc == 0x204) = true := by decide
theorem test_SK2_se : ok (run 0x3100 (v1 1)) (fun t => t.pc == 0x202) = true := by decide
theorem test_SK3_sne : ok (run 0x4205 (v12 0 5)) (fun t => t.pc == 0x202) = true := by decide
theorem test_SK4_sne : ok (run 0x4206 (v12 0 5)) (fun t => t.pc == 0x204) = true := by decide
theorem test_SK6_se_reg : ok (run 0x5120 (v12 0x7F 0x80)) (fun t => t.pc == 0x202) = true := by decide
theorem test_SK7_se_reg : ok (run 0x5121 (v12 1 1)) (fun t => t.pc == 0x204) = true := by decide
theorem test_SK9_sne_reg : ok (run 0x9120 (v12 1 2)) (fun t => t.pc == 0x204) = true := by decide
theorem test_SK10_sne_reg : ok (run 0x9120 (v12 2 2)) (fun t => t.pc == 0x202) = true := by decide

/-! ### Arithmetic and logic (A) -/

theorem test_A1_ld : ok (run 0x6A2B State.reset) (fun t => t.reg 10 == 0x2B && t.pc == 0x202) = true := by decide
theorem test_A3_add_immediate :
    ok (run 0x7102 (v1 0xFF)) (fun t => t.reg 1 == 0x01 && t.reg 15 == 0) = true := by decide
theorem test_A5_ld_reg :
    ok (run 0x8120 (v12 0 0x9C)) (fun t => t.reg 1 == 0x9C && t.reg 2 == 0x9C) = true := by decide
theorem test_A6_or :
    ok (run 0x8121 ((v12 0x0F 0xF0).setReg 15 0x55)) (fun t => t.reg 1 == 0xFF && t.reg 15 == 0x55) = true := by decide
theorem test_A7_and :
    ok (run 0x8122 ((v12 0x3C 0x0F).setReg 15 0x55)) (fun t => t.reg 1 == 0x0C && t.reg 15 == 0x55) = true := by decide
theorem test_A8_xor :
    ok (run 0x8123 ((v12 0xFF 0x0F).setReg 15 0x55)) (fun t => t.reg 1 == 0xF0 && t.reg 15 == 0x55) = true := by decide
theorem test_A13_add : ok (run 0x8124 (v12 0x80 0x80)) (fun t => t.reg 1 == 0 && t.reg 15 == 1) = true := by decide
theorem test_A16_add_to_VF :
    ok (run 0x8F14 ((v1 1).setReg 15 1)) (fun t => t.reg 15 == 0 && t.reg 1 == 1) = true := by decide
theorem test_A20_sub : ok (run 0x8125 (v12 3 5)) (fun t => t.reg 1 == 0xFE && t.reg 15 == 0) = true := by decide
theorem test_A21_sub_equal : ok (run 0x8125 (v12 7 7)) (fun t => t.reg 1 == 0 && t.reg 15 == 1) = true := by decide
theorem test_A27_subn : ok (run 0x8127 (v12 5 3)) (fun t => t.reg 1 == 0xFE && t.reg 15 == 0) = true := by decide
theorem test_A29_subn_equal : ok (run 0x8127 (v12 7 7)) (fun t => t.reg 1 == 0 && t.reg 15 == 1) = true := by decide
theorem test_A34_shr :
    ok (run 0x8126 (v12 4 0xFF)) (fun t => t.reg 1 == 2 && t.reg 2 == 0xFF && t.reg 15 == 0) = true := by decide
theorem test_A31_shr : ok (run 0x8106 (v1 3)) (fun t => t.reg 1 == 1 && t.reg 15 == 1) = true := by decide
theorem test_A37_shl : ok (run 0x810E (v1 0x81)) (fun t => t.reg 1 == 2 && t.reg 15 == 1) = true := by decide
theorem test_A41_shl_VF : ok (run 0x8F0E (State.reset.setReg 15 1)) (fun t => t.reg 15 == 0) = true := by decide
theorem test_A42_rnd :
    ok (opStep 0xA7 (State.reset.withFetchWord 16 0xC30F)) (fun t => t.reg 3 == 0x07 && t.pc == 0x202) = true := by decide
theorem test_A43_rnd : ok (run 0xC300 (State.reset.setReg 3 9)) (fun t => t.pc == 0x202 && t.draws == 1) = true := by decide

/-! ### Index register and memory (M) -/

theorem test_M2_ld_i : ok (run 0xAFFF (atI 0xFFFF)) (fun t => t.i == 0x0FFF) = true := by decide
theorem test_M4_add_i :
    ok (run 0xF21E ((v12 0 1).setI 0x0FFF)) (fun t => t.i == 0x1000 && t.reg 15 == 0) = true := by decide
theorem test_M5_add_i : ok (run 0xF21E ((v12 0 2).setI 0xFFFF)) (fun t => t.i == 0x0001) = true := by decide
theorem test_M7_ld_f : ok (run 0xF029 (State.reset.setReg 0 0x0F)) (fun t => t.i == 0x004B) = true := by decide
theorem test_M8_ld_f : ok (run 0xF029 (State.reset.setReg 0 0xFF)) (fun t => t.i == 0x04FB) = true := by decide
theorem test_M10_ld_b :
    ok (run 0xF033 ((atI 0xFFD).setReg 0 123))
      (fun t => t.byteAt 0xFFD == 1 && t.byteAt 0xFFE == 2 && t.byteAt 0xFFF == 3 && t.i == 0xFFD) = true := by decide
theorem test_M12_ld_b : raises (run 0xF033 (atI 0xFFFF)) (.addressFault 0xFFFF) = true := by decide
theorem test_M18_store :
    ok (run 0xF155 ((v12 0x22 0x33).setI 0x400))
      (fun t => t.byteAt 0x400 == 0 && t.byteAt 0x401 == 0x22 && t.byteAt 0x402 == 0 && t.i == 0x400) = true := by decide
theorem test_M14_store : raises (run 0xFF55 (atI 0xFF1)) (.addressFault 0x1000) = true := by decide
theorem test_M19_load :
    ok (run 0xF265 ((mem300 [2, 5, 4, 9]).setReg 3 0x77))
      (fun t => t.reg 0 == 2 && t.reg 1 == 5 && t.reg 2 == 4 && t.reg 3 == 0x77 && t.i == 0x300) = true := by decide
theorem test_M21_load_font :
    ok (run 0xFF65 State.reset) (fun t => t.v == #v[0xF0, 0x90, 0x90, 0x90, 0xF0, 0x20, 0x60, 0x20,
      0x20, 0x70, 0xF0, 0x10, 0xF0, 0x80, 0xF0, 0xF0]) = true := by decide

/-! ### Display (DR) -/

theorem test_DR1_DR8_draw :
    ok (run 0xD011 ((mem300 [0xFF]).setReg 0 60 |>.setReg 1 31)) (fun t => t.disp[31] == 0xF00000000000000F &&
      t.disp[0] == 0 && t.reg 15 == 0) = true ∧
    ok (run 0xD011 (((mem300 [0xF8]).setReg 0 8 |>.setReg 1 4).setDisp ((Vector.replicate 32 0).set 4 0x3000)))
      (fun t => t.disp[4] == 0x2F00 && t.reg 15 == 1) = true := by decide
theorem test_DR4_DR6_bounds :
    ok (run 0xD010 ((atI 0xFFFF).setReg 15 7)) (fun t => t.disp == State.reset.disp && t.reg 15 == 0) = true ∧
    raises (run 0xD002 (atI 0xFFF)) (.addressFault 0x1000) = true := by decide
theorem test_DR12_cls :
    ok (run 0x00E0 ((State.reset.setReg 15 1).setDisp (Vector.replicate 32 5)))
      (fun t => t.disp == State.reset.disp && t.reg 15 == 1) = true := by decide

/-! ### Keys and timers (K) -/

theorem test_K1_skp : ok (run 0xE19E ((keys [3]).setReg 1 3)) (fun t => t.pc == 0x204) = true := by decide
theorem test_K5_skp : raises (run 0xE19E (v1 0x10)) (.keyIndexFault 0x10) = true := by decide
theorem test_K4_sknp : ok (run 0xE1A1 ((keys [3]).setReg 1 3)) (fun t => t.pc == 0x202) = true := by decide
theorem test_K6_sknp : raises (run 0xE1A1 (v1 0xFF)) (.keyIndexFault 0xFF) = true := by decide
theorem test_K7_key_wait :
    ok (run 0xF10A ((keys [7, 3]).setReg 1 0x99)) (fun t => t.reg 1 == 3 && t.pc == 0x202) = true := by decide
theorem test_K8_key_wait : run 0xF10A (v1 0x99) = .next ((v1 0x99).withFetchWord 16 0xF10A) := by rfl
theorem test_K10_ld_dt :
    ok (run 0xF207 (State.reset.setDt 0x39)) (fun t => t.reg 2 == 0x39 && t.dt == 0x39) = true := by decide
theorem test_K11_set_dt : ok (run 0xF015 (State.reset.setReg 0 0x3C)) (fun t => t.dt == 0x3C && t.st == 0) = true := by decide
theorem test_K12_set_st :
    ok (run 0xF018 (State.reset.setReg 0 0x3C)) (fun t => opGetSound t == (0x3C, true) && t.dt == 0) = true := by decide

/-! ### Host operations (H) -/

theorem test_H1_initialize : opInitialize Config.font (depth 3 9) = State.reset := by decide
theorem test_H3_load_program :
    ok (opLoadProgram [0x12] State.reset) (fun t => t.byteAt 0x200 == 0x12 && t.byteAt 0x201 == 0 && t.pc == 0x200) = true := by decide
theorem test_H6_tick :
    (opTick ((State.reset.setDt 0x3C).setSt 1)).dt = 0x3B ∧ (opTick ((State.reset.setDt 0x3C).setSt 1)).st = 0 := by decide
theorem test_H7_tick_zero : opTick State.reset = State.reset := by decide
theorem test_H9_set_key : opGetKey 7 (opSetKey 7 true State.reset) = true ∧ opGetKey 6 (opSetKey 7 true State.reset) = false := by decide
theorem test_S11_codes : Fault.code (.keyIndexFault 16) = 6 ∧ Fault.code .stackOverflow = 2 := by decide
theorem test_memory_canonical :
    Memory.write (Memory.write [] 0x300 7) 0x300 0 = [] ∧ Memory.write [] 0 0xF0 = [] ∧
    Memory.write (Memory.write [] 0x301 7) 0x300 8 = [(0x300, 8), (0x301, 7)] := by decide
theorem test_reset_memory_wf : Memory.wf State.reset.mem = true := by decide

/-! ### Witnesses: the hypotheses of each obligation can all be met -/

theorem witness_DecodeOfEncodeIsIdentity : WellFormed (.sys 0x0E1) ∧ WellFormed (.drw 15 15 15) := by decide
theorem witness_DecodedWordEncodesBack : decode 0x5121 = .ok (.seReg 1 2) := by decide
theorem witness_StepRunsDecodedInstruction :
    let s := (State.reset.jump 0xFFE).withFetchWord 16 0x6A2B
    s.pc.toNat ≤ 0xFFE ∧ OpcodeAt s 0x6A2B ∧ decode 0x6A2B = .ok (.ldImm 10 0x2B) := by decide
theorem witness_FetchOutsideMemoryFaults :
    0xFFE < (State.reset.jump 0xFFF).pc.toNat ∧ 0xFFE < (State.reset.jump 0x1000).pc.toNat ∧
    0xFFE < (State.reset.jump 0xFFFF).pc.toNat := by decide
theorem witness_UnknownWordFaults :
    let s := State.reset.withFetchWord 16 0xF000
    s.pc.toNat ≤ 0xFFE ∧ OpcodeAt s 0xF000 ∧ decode 0xF000 = .error (.unknownOpcode 0xF000) := by decide
theorem witness_StepErrorsAreExactlyTheTable :
    stepFault State.reset = none ∧ stepFault (State.reset.jump 0xFFF) = some (.addressFault 0x1000) ∧
    stepFault (State.reset.withFetchWord 16 0x8008) = some (.unknownOpcode 0x8008) ∧
    stepFault (State.reset.withFetchWord 16 0x00EE) = some .stackUnderflow := by decide
theorem witness_EveryInstructionCompletesUnlessItsCheckFails :
    faultOf .ret (depth 1 0) = none ∧ faultOf .ret (depth 0 0) = some .stackUnderflow ∧
    faultOf (.call 0) (depth 15 0) = none ∧ faultOf (.call 0) (depth 16 0) = some .stackOverflow ∧
    faultOf (.drw 0 0 15) (atI 0xFF1) = none ∧ faultOf (.drw 0 0 15) (atI 0xFF2) = some (.addressFault 0x1000) ∧
    faultOf (.skp 1) (v1 15) = none ∧ faultOf (.sknp 1) (v1 16) = some (.keyIndexFault 16) := by decide
theorem witness_CallStacksReturnAddress :
    (depth 16 0).sp.val = 16 ∧ (depth 15 0).sp.val < 16 ∧ (depth 0 0).sp.val < 16 := by decide
theorem witness_RetGoesToStackedAddress :
    (depth 0 0).sp.val = 0 ∧ (depth 1 0).sp.val = (0 : Fin 16).val + 1 ∧ (depth 16 0).sp.val = (15 : Fin 16).val + 1 := by
  decide
theorem witness_RetUndoesCall : ∃ t, exec (.call 0x300) (depth 15 7) = .next t ∧ t.stack = t.stack ∧ t.sp = t.sp :=
  ⟨_, rfl, rfl, rfl⟩
theorem witness_LdBStoresDecimalDigits :
    (atI 0xFFD).mem.wf = true ∧ (atI 0xFFD).i.toNat + 2 ≤ 0xFFF ∧ (atI 0xFFE).mem.wf = true ∧
    0xFFF < (atI 0xFFE).i.toNat + 2 := by decide
theorem witness_LdMemVxStoresRegisters :
    (atI 0xFF0).mem.wf = true ∧ (atI 0xFF0).i.toNat + (15 : Reg).val ≤ 0xFFF ∧ (atI 0xFF1).mem.wf = true ∧
    0xFFF < (atI 0xFF1).i.toNat + (15 : Reg).val := by decide
theorem witness_LdVxMemLoadsRegisters :
    (atI 0xFFF).i.toNat + (0 : Reg).val ≤ 0xFFF ∧ 0xFFF < (atI 0x1000).i.toNat + (0 : Reg).val := by decide
theorem witness_StoredRegistersLoadBack :
    ∃ t, (atI 0xFF0).mem.wf = true ∧ exec (.ldMemVx 15) (atI 0xFF0) = .next t ∧ t.mem = t.mem ∧ t.i = t.i :=
  ⟨_, rfl, rfl, rfl, rfl⟩
theorem witness_StoredBytesAreFetched :
    let s := ((atI 0xFFE).setReg 0 0x6A).setReg 1 0x55
    ∃ t, s.mem.wf = true ∧ 1 ≤ (1 : Reg).val ∧ exec (.ldMemVx 1) s = .next t ∧
      (0x6A55 : Word).toNat = (s.reg 0).toNat * 256 + (s.reg 1).toNat ∧ decode 0x6A55 = .ok (.ldImm 10 0x55) :=
  ⟨_, rfl, by decide, rfl, rfl, by decide⟩
theorem witness_DrwIsExclusiveOrWithCollision :
    (0 : Fin 16).val = 0 ∧ (atI 0xFF1).i.toNat + (15 : Fin 16).val - 1 ≤ 0xFFF ∧ 1 ≤ (2 : Fin 16).val ∧
    0xFFF < (atI 0xFFF).i.toNat + (2 : Fin 16).val - 1 := by decide
theorem witness_DrawingTwiceRestoresDisplay :
    ∃ t, exec (.drw 0 1 1) (mem300 [0xFF]) = .next t ∧ t.disp = t.disp ∧ t.mem = (mem300 [0xFF]).mem ∧
      t.i = (mem300 [0xFF]).i ∧ t.column 0 = (mem300 [0xFF]).column 0 ∧ t.row 1 = (mem300 [0xFF]).row 1 :=
  ⟨_, rfl, rfl, rfl, rfl, by decide, by decide⟩
theorem witness_KeySkips :
    (15 : Reg).val = ((v1 15).reg 1).toNat ∧ (0 : Reg).val = ((v1 0).reg 1).toNat ∧ 15 < ((v1 16).reg 1).toNat := by decide
theorem witness_KeyWaitHoldsOrLoadsLeastKey :
    (∀ k : Reg, State.reset.key[k] = false) ∧ (keys [15]).key[(15 : Reg)] = true ∧
    (∀ j : Reg, j < 15 → (keys [15]).key[j] = false) ∧ (keys [0, 3]).key[(0 : Reg)] = true := by decide
theorem witness_OnlyDestinationRegistersChange :
    ∃ t, exec (.addReg 1 2) (v12 1 2) = .next t ∧ namesDest (.addReg 1 2) 2 = false ∧
      ((2 : Reg) = 15 → setsFlag (.addReg 1 2) = false) := ⟨_, rfl, by decide, by decide⟩
theorem witness_FlagIsZeroOrOne :
    ∃ t, setsFlag (.shl 15) = true ∧ exec (.shl 15) State.reset = .next t := ⟨_, rfl, rfl⟩
theorem witness_OnlyStoredBytesChange :
    ∃ t, exec (.ldMemVx 3) (atI 0x400) = .next t ∧ storesTo (.ldMemVx 3) (atI 0x400) 0x404 = false ∧
      storesTo (.ldMemVx 3) (atI 0x400) 0x403 = true ∧ storesTo (.ldB 3) (atI 0x400) 0x403 = false :=
  ⟨_, rfl, by decide, by decide, by decide⟩
theorem witness_StateHasNoOtherWriters : ∃ t, exec (.ldDtVx 1) (v1 9) = .next t ∧ t.dt ≠ (v1 9).dt := ⟨_, rfl, by decide⟩
theorem witness_PcGoesByTheTable :
    ∃ t, exec .ret (depth 16 0x456) = .next t ∧
      ((HostOp.step 0).apply (State.reset.withFetchWord 16 0x8008)).1 = .error (.unknownOpcode 0x8008) := ⟨_, rfl, by decide⟩
theorem witness_OnlyRndSeesDraws :
    ∃ t, (∀ x kk, Instr.cls ≠ .rnd x kk) ∧ exec .cls State.reset = .next t ∧
      exec .ret State.reset = .fault .stackUnderflow := ⟨_, by intros; simp, rfl, rfl⟩
theorem witness_SoundTimerIsInvisible :
    ∃ t, step (State.reset.withFetchWord 16 0xF018) = .next t ∧
      step (State.reset.withFetchWord 16 0x00EE) = .fault .stackUnderflow := ⟨_, rfl, rfl⟩
theorem witness_StepIsStepOnFreeDraw :
    let s := State.reset.withFetchWord 16 0x00E0
    s.pc.toNat ≤ 0xFFE ∧ OpcodeAt s 0x00E0 ∧ decode 0x00E0 = .ok .cls ∧ ∀ x kk, Instr.cls ≠ .rnd x kk :=
  ⟨by decide, by decide, by decide, by intros; simp⟩
theorem witness_StepKeepsInvariant :
    ∃ t, Invariant (State.reset.withFetchWord 16 0x2300) ∧ step (State.reset.withFetchWord 16 0x2300) = .next t :=
  ⟨_, by decide, rfl⟩
theorem witness_CanonicalMemoriesThatReadAlikeAreEqual :
    Memory.wf [(0x300, 1), (0xFFF, 2)] = true ∧
      ∀ a, Memory.read [(0x300, 1), (0xFFF, 2)] a = Memory.read [(0x300, 1), (0xFFF, 2)] a := ⟨by decide, fun _ => rfl⟩
theorem witness_FixedPointsOfStep_jp :
    let s := State.reset.withFetchWord 16 0x1200
    s.pc.toNat ≤ 0xFFE ∧ OpcodeAt s 0x1200 ∧ decode 0x1200 = .ok (.jp 0x200) ∧ (0x200 : Addr12).toNat = s.pc.toNat ∧
      step s = .next s := ⟨by decide, by decide, by decide, by decide, rfl⟩
theorem witness_FixedPointsOfStep_jpV0 :
    let s := (State.reset.setReg 0 4).withFetchWord 16 0xB1FC
    s.pc.toNat ≤ 0xFFE ∧ OpcodeAt s 0xB1FC ∧ decode 0xB1FC = .ok (.jpV0 0x1FC) ∧
      (0x1FC : Addr12).toNat + (s.reg 0).toNat = s.pc.toNat ∧ step s = .next s :=
  ⟨by decide, by decide, by decide, by decide, rfl⟩
theorem witness_FixedPointsOfStep_keyWait :
    let s := State.reset.withFetchWord 16 0xF10A
    s.pc.toNat ≤ 0xFFE ∧ OpcodeAt s 0xF10A ∧ decode 0xF10A = .ok (.ldVxK 1) ∧ (∀ k : Reg, s.key[k] = false) ∧
      step s = .next s := ⟨by decide, by decide, by decide, by decide, rfl⟩
theorem witness_KeyWaitHoldsWithoutBound :
    let s := State.reset.withFetchWord 16 0xF10A
    s.pc.toNat ≤ 0xFFE ∧ OpcodeAt s 0xF10A ∧ decode 0xF10A = .ok (.ldVxK 1) ∧ ∀ k : Reg, s.key[k] = false := by decide
theorem witness_LoadProgramCopiesBytes :
    State.reset.mem.wf = true ∧ (List.replicate 3584 (0xAA : Byte)).length ≤ 3584 ∧
      3584 < (List.replicate 3585 (0xAA : Byte)).length := ⟨by decide, by rw [List.length_replicate], by rw [List.length_replicate]; omega⟩
theorem witness_InitializeIsIdempotent : (List.replicate 3584 (0xAA : Byte)).length ≤ 3584 := by
  rw [List.length_replicate]
theorem witness_ErrorsChangeNothing :
    ((HostOp.step 0).apply (State.reset.withFetchWord 16 0x00EE)).1 = .error .stackUnderflow := by decide
theorem witness_FailedStepFailsTheSameWay :
    opStep 0 (State.reset.withFetchWord 16 0x00EE) = .fault .stackUnderflow := by rfl
theorem witness_NothingBeforeInitialize : ∀ font, HostOp.tick ≠ .init font := by intro font; simp

end Sys2Proof.Tests
end

section
/-! The flow instructions that raise no error (41_flow.md R90, R92, R94): each is one jump, so each is settled by the
address that it jumps to. -/

namespace Sys2Proof.Machine

/-! ### The instructions as jumps -/

theorem State.jump_eq (s : State) (a : Word) : s.jump a = { s with pc := a } := rfl

@[simp] theorem exec_sys (nnn : Addr12) (s : State) : exec (.sys nnn) s = .next (s.jump (s.pc + 2)) := rfl

@[simp] theorem exec_jp (nnn : Addr12) (s : State) : exec (.jp nnn) s = .next (s.jump (zextAddr nnn)) := rfl

@[simp] theorem exec_jpV0 (nnn : Addr12) (s : State) :
    exec (.jpV0 nnn) s = .next (s.jump (zextAddr nnn + zextByte (s.reg 0))) := rfl

/-- The 16-bit sum does not wrap: it is at most `0xFFF + 0xFF` (R94). -/
theorem zextAddr_add_zextByte_toNat (nnn : Addr12) (b : Byte) :
    (zextAddr nnn + zextByte b).toNat = nnn.toNat + b.toNat := by
  have hnnn := nnn.isLt
  have hb := b.isLt
  have hsum : (zextAddr nnn).toNat + (zextByte b).toNat < 2 ^ 16 := by
    rw [zextAddr_toNat, zextByte_toNat]; omega
  rw [BitVec.toNat_add_of_lt hsum, zextAddr_toNat, zextByte_toNat]

/-! ### The obligations -/

/-- Settles O10: `SYS` is the jump to `PC + 2`, in which the operand does not occur. -/
theorem sysOnlyAdvances : Obligations.SysOnlyAdvances := by
  intro nnn s
  rw [exec_sys, State.jump_eq]

/-- Settles O11: the target is the zero-extended operand, and every target is accepted. -/
theorem jpSetsPc : Obligations.JpSetsPc := by
  intro nnn s
  refine ⟨zextAddr nnn, zextAddr_toNat nnn, ?_⟩
  rw [exec_jp, State.jump_eq]

/-- Settles O12: the target is the sum of the two zero-extended operands, which does not wrap. -/
theorem jpV0AddsV0ToTarget : Obligations.JpV0AddsV0ToTarget := by
  intro nnn s
  refine ⟨zextAddr nnn + zextByte (s.reg 0), zextAddr_add_zextByte_toNat nnn (s.reg 0), ?_⟩
  rw [exec_jpV0, State.jump_eq]

end Sys2Proof.Machine
end

section
/-! The compare-and-skip instructions (42_skip.md R95 to R98): each is one jump, to `PC + 4` or `PC + 2` by the
comparison of two bytes. -/

namespace Sys2Proof.Machine

/-! ### Skips on a comparison as jumps -/

theorem State.skipIf_beq (s : State) (a b : Byte) :
    s.skipIf (a == b) = s.jump (if a = b then s.pc + 4 else s.pc + 2) := by
  rw [State.skipIf_eq_jump]
  by_cases hab : a = b
  · simp [hab]
  · simp [hab]

theorem State.skipIf_bne (s : State) (a b : Byte) :
    s.skipIf (a != b) = s.jump (if a = b then s.pc + 2 else s.pc + 4) := by
  rw [State.skipIf_eq_jump]
  by_cases hab : a = b
  · simp [hab]
  · simp [hab]

/-! ### The instructions -/

@[simp] theorem exec_seImm (x : Reg) (kk : Byte) (s : State) :
    exec (.seImm x kk) s = .next (s.skipIf (s.reg x == kk)) := rfl

@[simp] theorem exec_sneImm (x : Reg) (kk : Byte) (s : State) :
    exec (.sneImm x kk) s = .next (s.skipIf (s.reg x != kk)) := rfl

@[simp] theorem exec_seReg (x y : Reg) (s : State) :
    exec (.seReg x y) s = .next (s.skipIf (s.reg x == s.reg y)) := rfl

@[simp] theorem exec_sneReg (x y : Reg) (s : State) :
    exec (.sneReg x y) s = .next (s.skipIf (s.reg x != s.reg y)) := rfl

/-! ### The obligation -/

/-- Settles O16: each form is the jump that its comparison chooses, and a jump writes `PC` alone. -/
theorem compareAndSkip : Obligations.CompareAndSkip := by
  intro x y kk s
  refine ⟨?seImm, ?sneImm, ?seReg, ?sneReg⟩
  case seImm => rw [exec_seImm, State.skipIf_beq, State.jump_eq]
  case sneImm => rw [exec_sneImm, State.skipIf_bne, State.jump_eq]
  case seReg => rw [exec_seReg, State.skipIf_beq, State.jump_eq]
  case sneReg => rw [exec_sneReg, State.skipIf_bne, State.jump_eq]

end Sys2Proof.Machine
end

section
/-! Register loads, logic, addition and subtraction (43_alu.md R100 to R107, R109): each is one register write, or one
result-and-flag write, followed by the advance, so each is settled by the byte and the flag that it writes. -/

namespace Sys2Proof.Machine

/-! ### The two ways an ALU instruction writes registers -/

/-- An instruction that sets `V[x]` and advances writes `V[x]` and nothing else. -/
theorem writesReg_of_exec {i : Instr} {s : State} {x : Reg} {b : Byte}
    (h : exec i s = .next (s.setReg x b).next) : WritesReg i s x b :=
  ⟨(s.setReg x b).v, h, fun r => State.reg_setReg s x r b⟩

theorem State.reg_setResultFlag (s : State) (x r : Reg) (b f : Byte) :
    (s.setResultFlag x b f).reg r = if r = 15 then f else if r = x then b else s.reg r := by
  rw [State.setResultFlag_eq, State.reg_setReg, State.reg_setReg]

/-- An instruction that sets `V[x]` and then VF and advances writes those two and nothing else; the flag, written
last, wins at `x = 15` (R12). -/
theorem writesRegAndFlag_of_exec {i : Instr} {s : State} {x : Reg} {b f : Byte}
    (h : exec i s = .next (s.setResultFlag x b f).next) : WritesRegAndFlag i s x b f :=
  ⟨(s.setResultFlag x b f).v, h, fun r => State.reg_setResultFlag s x r b f⟩

/-! ### The instructions -/

@[simp] theorem exec_ldImm (x : Reg) (kk : Byte) (s : State) :
    exec (.ldImm x kk) s = .next (s.setReg x kk).next := rfl

@[simp] theorem exec_addImm (x : Reg) (kk : Byte) (s : State) :
    exec (.addImm x kk) s = .next (s.setReg x (s.reg x + kk)).next := rfl

@[simp] theorem exec_ldReg (x y : Reg) (s : State) :
    exec (.ldReg x y) s = .next (s.setReg x (s.reg y)).next := rfl

@[simp] theorem exec_orReg (x y : Reg) (s : State) :
    exec (.orReg x y) s = .next (s.setReg x (s.reg x ||| s.reg y)).next := rfl

@[simp] theorem exec_andReg (x y : Reg) (s : State) :
    exec (.andReg x y) s = .next (s.setReg x (s.reg x &&& s.reg y)).next := rfl

@[simp] theorem exec_xorReg (x y : Reg) (s : State) :
    exec (.xorReg x y) s = .next (s.setReg x (s.reg x ^^^ s.reg y)).next := rfl

@[simp] theorem exec_addReg (x y : Reg) (s : State) :
    exec (.addReg x y) s =
      .next (s.setResultFlag x (s.reg x + s.reg y) (carry (s.reg x) (s.reg y))).next := rfl

@[simp] theorem exec_sub (x y : Reg) (s : State) :
    exec (.sub x y) s =
      .next (s.setResultFlag x (s.reg x - s.reg y) (noBorrow (s.reg x) (s.reg y))).next := rfl

@[simp] theorem exec_subn (x y : Reg) (s : State) :
    exec (.subn x y) s =
      .next (s.setResultFlag x (s.reg y - s.reg x) (noBorrow (s.reg y) (s.reg x))).next := rfl

/-! ### The values written -/

theorem flagByte_decide (p : Prop) [Decidable p] : flagByte (decide p) = if p then 1 else 0 := by
  simp only [flagByte, decide_eq_true_eq]

theorem carry_eq (a b : Byte) : carry a b = if 255 < a.toNat + b.toNat then 1 else 0 :=
  flagByte_decide _

theorem noBorrow_eq (a b : Byte) : noBorrow a b = if b.toNat ≤ a.toNat then 1 else 0 :=
  flagByte_decide _

/-- The difference over the integers, which a borrow makes negative, reduced mod 256 (R107, R109). -/
theorem byte_sub_toNat (a b : Byte) : ((a - b).toNat : Int) = ((a.toNat : Int) - b.toNat) % 256 := by
  have ha := a.isLt
  have hb := b.isLt
  rw [BitVec.toNat_sub]
  omega

/-! ### The two subtractions at once -/

/-- An instruction that writes `a - b` and its no-borrow flag meets the statement about `a` and `b`. -/
theorem writes_difference {i : Instr} {s : State} {x : Reg} {a b : Byte}
    (h : exec i s = .next (s.setResultFlag x (a - b) (noBorrow a b)).next) :
    ∃ d : Byte, (d.toNat : Int) = ((a.toNat : Int) - b.toNat) % 256 ∧
      WritesRegAndFlag i s x d (if b.toNat ≤ a.toNat then 1 else 0) := by
  refine ⟨a - b, byte_sub_toNat a b, ?_⟩
  rw [← noBorrow_eq]
  exact writesRegAndFlag_of_exec h

/-! ### The obligations -/

/-- Settles O17: each is one register write, and the three logic results are read bit by bit. -/
theorem loadsAndLogicWriteVx : Obligations.LoadsAndLogicWriteVx := by
  intro x y kk s
  refine ⟨?ldImm, ?ldReg, ?orReg, ?andReg, ?xorReg⟩
  case ldImm => exact writesReg_of_exec (exec_ldImm x kk s)
  case ldReg => exact writesReg_of_exec (exec_ldReg x y s)
  case orReg => exact ⟨_, writesReg_of_exec (exec_orReg x y s), fun _ _ => BitVec.getLsbD_or⟩
  case andReg => exact ⟨_, writesReg_of_exec (exec_andReg x y s), fun _ _ => BitVec.getLsbD_and⟩
  case xorReg => exact ⟨_, writesReg_of_exec (exec_xorReg x y s), fun _ _ => BitVec.getLsbD_xor⟩

/-- Settles O18: one register write of the sum of two bytes, which wraps at 256. -/
theorem addImmediateHasNoFlag : Obligations.AddImmediateHasNoFlag := by
  intro x kk s
  exact ⟨s.reg x + kk, BitVec.toNat_add (s.reg x) kk, writesReg_of_exec (exec_addImm x kk s)⟩

/-- Settles O19: the sum wraps at 256, and the carry, computed from the old registers, is written last. -/
theorem addSetsCarry : Obligations.AddSetsCarry := by
  intro x y s
  refine ⟨s.reg x + s.reg y, BitVec.toNat_add (s.reg x) (s.reg y), ?_⟩
  rw [← carry_eq]
  exact writesRegAndFlag_of_exec (exec_addReg x y s)

/-- Settles O20: `SUB` and `SUBN` write one difference and its no-borrow flag, with the operands exchanged. -/
theorem subtractionsSetNoBorrow : Obligations.SubtractionsSetNoBorrow := by
  intro x y s
  exact ⟨writes_difference (exec_sub x y s), writes_difference (exec_subn x y s)⟩

end Sys2Proof.Machine
end

section
/-! The index register (44_index_memory.md R120, R121): each instruction is one write of `I` followed by the advance, so
each is settled by the address that it writes. -/

namespace Sys2Proof.Machine

/-! ### The instructions -/

theorem State.setI_next_eq (s : State) (a : Word) : (s.setI a).next = { s with i := a, pc := s.pc + 2 } := rfl

@[simp] theorem exec_ldI (nnn : Addr12) (s : State) : exec (.ldI nnn) s = .next (s.setI (zextAddr nnn)).next := rfl

@[simp] theorem exec_addI (x : Reg) (s : State) :
    exec (.addI x) s = .next (s.setI (s.i + zextByte (s.reg x))).next := rfl

/-! ### The address written -/

/-- Zero extension keeps the byte's value, so only the 16-bit sum wraps (R121). -/
theorem add_zextByte_toNat (a : Word) (b : Byte) : (a + zextByte b).toNat = (a.toNat + b.toNat) % 65536 := by
  rw [BitVec.toNat_add, zextByte_toNat]

/-! ### The obligation -/

/-- Settles O23: `I` becomes the zero-extended operand, or the wrapped sum; neither form writes a register. -/
theorem indexLoadAndAdd : Obligations.IndexLoadAndAdd := by
  intro nnn x s
  refine ⟨⟨zextAddr nnn, zextAddr_toNat nnn, ?ldI⟩,
    ⟨s.i + zextByte (s.reg x), add_zextByte_toNat s.i (s.reg x), ?addI⟩⟩
  case ldI => rw [exec_ldI, State.setI_next_eq]
  case addI => rw [exec_addI, State.setI_next_eq]

end Sys2Proof.Machine
end

section
/-! Clearing the display (45_display.md R130): `CLS` is one write of the display followed by the advance, so it is
settled by the cells of the display that it writes. -/

namespace Sys2Proof.Machine

/-! ### The instruction -/

theorem State.setDisp_next_eq (s : State) (d : Display) :
    (s.setDisp d).next = { s with disp := d, pc := s.pc + 2 } := rfl

@[simp] theorem exec_cls (s : State) : exec .cls s = .next (s.setDisp (Vector.replicate 32 0)).next := rfl

/-! ### The obligation -/

/-- Settles O30: the display written is the clear one, and only `PC` is written besides. -/
theorem clsClearsEveryCell : Obligations.ClsClearsEveryCell := by
  intro s
  refine ⟨Vector.replicate 32 0, ?state, cell_clear⟩
  case state => rw [exec_cls, State.setDisp_next_eq]

end Sys2Proof.Machine
end

section
/-! The keys of the host (47_host_operations.md R152, R153): SET_KEY is one write of the vector of flags and GET_KEY one
read of it, so both are settled by what a flag reads after the write. -/

namespace Sys2Proof.Machine

/-! ### The operations -/

theorem opSetKey_eq (k : Reg) (p : Bool) (s : State) : opSetKey k p s = { s with key := s.key.set k p } := rfl

@[simp] theorem apply_setKey (k : Reg) (p : Bool) (s : State) :
    (HostOp.setKey k p).apply s = (.ok, opSetKey k p s) := rfl

@[simp] theorem apply_getKey (k : Reg) (s : State) : (HostOp.getKey k).apply s = (.key s.key[k], s) := rfl

/-! ### The flag read -/

/-- The flags are indexed by key numbers, so a write reaches the flag of that key and no other (R152). -/
theorem getElem_setFlag (ks : Vector Bool 16) (k j : Reg) (p : Bool) :
    (ks.set k p)[j] = if j = k then p else ks[j] := by
  simp only [Fin.getElem_fin, Vector.getElem_set, Fin.ext_iff, eq_comm]

/-! ### The obligation -/

/-- Settles O54: the flags written differ from the old ones at `k` alone, and GET_KEY answers with the flag it reads. -/
theorem setKeyAndGetKey : Obligations.SetKeyAndGetKey := by
  intro k p s
  refine ⟨⟨s.key.set k p, ?state, fun j => getElem_setFlag s.key k j p⟩, ?get⟩
  case state => rw [apply_setKey, opSetKey_eq]
  case get => rw [apply_getKey]

end Sys2Proof.Machine
end

section
/-! Errors of the host operations (60_exceptions.md R169): only LOAD_PROGRAM and STEP can raise one, both answer by
`settle`, and `settle` answers with an error for the outcome `fault` alone, for which it keeps the state. -/

namespace Sys2Proof.Machine

/-! ### Settling an outcome -/

@[simp] theorem settle_next (s t : State) : settle s (.next t) = (.ok, t) := rfl

@[simp] theorem settle_fault (s : State) (e : Fault) : settle s (.fault e) = (.error e, s) := rfl

@[simp] theorem settle_refused (s : State) (r : Refusal) : settle s (.refused r) = (.noMeaning r, s) := rfl

theorem settle_fst_eq_error_iff {s : State} {r : Result} {e : Fault} :
    (settle s r).1 = .error e ↔ r = .fault e := by
  cases r with
  | next t => simp
  | fault e' => simp
  | refused r' => simp

theorem settle_snd_of_error {s : State} {r : Result} {e : Fault} (h : (settle s r).1 = .error e) :
    (settle s r).2 = s := by
  rw [settle_fst_eq_error_iff.mp h, settle_fault]

/-! ### The operations that can raise an error -/

@[simp] theorem apply_loadProgram (bytes : List Byte) (s : State) :
    (HostOp.loadProgram bytes).apply s = settle s (opLoadProgram bytes s) := rfl

@[simp] theorem apply_step (d : Byte) (s : State) : (HostOp.step d).apply s = settle s (opStep d s) := rfl

/-! ### The obligation -/

/-- Settles O57: LOAD_PROGRAM and STEP settle an outcome, so an error keeps the state; the reply of INITIALIZE,
SET_KEY and TICK is no error, and the four reads return the state that they read. -/
theorem errorsChangeNothing : Obligations.ErrorsChangeNothing := by
  intro op s e h
  cases op with
  | loadProgram bytes =>
    rw [apply_loadProgram] at h ⊢
    exact settle_snd_of_error h
  | step d =>
    rw [apply_step] at h ⊢
    exact settle_snd_of_error h
  | init font => exact nomatch h
  | setKey k p => exact nomatch h
  | tick => exact nomatch h
  | getKey k => rfl
  | getDisplay => rfl
  | getRegisters => rfl
  | getSound => rfl

end Sys2Proof.Machine
end

section
/-! A second INITIALIZE, and a LOAD_PROGRAM after INITIALIZE (70_reset_and_hazards.md R183): INITIALIZE reads nothing of
the state but the model's count of draws, which it keeps, and LOAD_PROGRAM of a program that fits writes memory alone. -/

namespace Sys2Proof.Machine

/-! ### INITIALIZE -/

@[simp] theorem opInitialize_draws (font : Font) (s : State) : (opInitialize font s).draws = s.draws := rfl

@[simp] theorem opInitialize_pc (font : Font) (s : State) : (opInitialize font s).pc = 0x200 := rfl

/-- Of the state before, INITIALIZE looks at the count of draws alone (R180; log entry 2). -/
theorem opInitialize_congr (font : Font) {s t : State} (h : s.draws = t.draws) :
    opInitialize font s = opInitialize font t := by
  rw [opInitialize, opInitialize, h]

theorem opInitialize_opInitialize (font font' : Font) (s : State) :
    opInitialize font (opInitialize font' s) = opInitialize font s :=
  opInitialize_congr font (opInitialize_draws font' s)

/-! ### LOAD_PROGRAM -/

theorem opLoadProgram_fits {bytes : List Byte} (h : bytes.length ≤ 3584) (s : State) :
    opLoadProgram bytes s = .next (s.setMem (s.mem.writeBlock 0x200 bytes)) :=
  if_neg (Nat.not_lt.mpr h)

/-! ### The obligation -/

/-- Settles O52: the second INITIALIZE finds the count of draws that the first one found, and LOAD_PROGRAM keeps the
`PC` that INITIALIZE set. -/
theorem initializeIsIdempotent : Obligations.InitializeIsIdempotent := by
  intro font s bytes
  refine ⟨opInitialize_opInitialize font font s, fun hfits => ?load⟩
  case load =>
    refine ⟨_, opLoadProgram_fits hfits (opInitialize font s), ?pc⟩
    case pc => rw [State.setMem_pc, opInitialize_pc]

end Sys2Proof.Machine
end

section
/-! The decoder and the encoder (30_encoding.md sections 1 to 4): a word is its fields packed again, so each family is
settled by the fields that its rows keep. -/

namespace Sys2Proof

/-! ### Decoding an encoded instruction -/

theorem wellFormed_sys_iff {nnn : Addr12} : WellFormed (.sys nnn) ↔ nnn ≠ 0x0E0 ∧ nnn ≠ 0x0EE := by
  simp only [WellFormed, Instr.wf, Bool.and_eq_true, bne_iff_ne]

/-- A `0nnn` word is that of `CLS` or `RET` only with their address operand, so a well-formed `SYS` is neither. -/
theorem decode_packNnn_sys {nnn : Addr12} (h : WellFormed (.sys nnn)) : decode (packNnn 0x0 nnn) = .ok (.sys nnn) := by
  obtain ⟨hnotCls, hnotRet⟩ := wellFormed_sys_iff.mp h
  have hcls : packNnn 0x0 nnn ≠ 0x00E0 := fun e => hnotCls (by rw [← opNnn_packNnn 0x0 nnn, e]; rfl)
  have hret : packNnn 0x0 nnn ≠ 0x00EE := fun e => hnotRet (by rw [← opNnn_packNnn 0x0 nnn, e]; rfl)
  have hfamily : decode (packNnn 0x0 nnn) = decode0 (packNnn 0x0 nnn) := by simp [decode]
  rw [hfamily, decode0, if_neg hcls, if_neg hret, opNnn_packNnn]

theorem decode_encode {i : Instr} (h : WellFormed i) : decode (encode i) = .ok i := by
  cases i with
  | sys nnn => exact decode_packNnn_sys h
  | cls | ret => rfl
  | jp nnn | call nnn | ldI nnn | jpV0 nnn => simp [encode, decode]
  | seImm x kk | sneImm x kk | ldImm x kk | addImm x kk | rnd x kk => simp [encode, decode]
  | seReg x y | sneReg x y => simp [encode, decode]
  | drw x y n => simp [encode, decode]
  | ldReg x y | orReg x y | andReg x y | xorReg x y | addReg x y | sub x y | subn x y =>
    simp [encode, decode, decode8]
  | shr x | shl x => simp [encode, decode, decode8]
  | skp x | sknp x => simp [encode, decode, decodeE]
  | ldVxDt x | ldVxK x | ldDtVx x | ldStVx x | addI x | ldF x | ldB x | ldMemVx x | ldVxMem x =>
    simp [encode, decode, decodeF]

/-- Settles O2: each family decodes its packed fields, and the two bytes of a word make the word again. -/
theorem decodeOfEncodeIsIdentity : Obligations.DecodeOfEncodeIsIdentity := by
  intro i rest hwf
  refine ⟨decode_encode hwf, ?bytes⟩
  case bytes =>
    show decodeBytes (highByte (encode i) :: lowByte (encode i) :: rest) = _
    rw [decodeBytes_bytes, decode_encode hwf]

/-! ### A word is its fields packed again -/

theorem and_allBits (op : Word) : op &&& 0xFFFF = op := BitVec.and_allOnes

theorem packNnn_fields {op : Word} {p : BitVec 4} (hp : (opP op).toNat = p.toNat) :
    packNnn p (opNnn op) = op &&& 0xFFFF := by
  rw [and_allBits]
  apply BitVec.eq_of_toNat_eq
  rw [opP_toNat] at hp
  rw [packNnn_toNat, opNnn_toNat]
  omega

theorem packXkk_fields {op : Word} {p : BitVec 4} {kk : Byte} (hp : (opP op).toNat = p.toNat)
    (hkk : (opKk op).toNat = kk.toNat) : packXkk p (opX op) kk = op &&& 0xFFFF := by
  rw [and_allBits]
  apply BitVec.eq_of_toNat_eq
  rw [opP_toNat] at hp
  rw [opKk_toNat] at hkk
  rw [packXkk_toNat, opX_val]
  omega

theorem packXyn_fields {op : Word} {p : BitVec 4} {n : Fin 16} (hp : (opP op).toNat = p.toNat)
    (hn : (opN op).val = n.val) : packXyn p (opX op) (opY op) n = op &&& 0xFFFF := by
  rw [and_allBits]
  apply BitVec.eq_of_toNat_eq
  rw [opP_toNat] at hp
  rw [opN_val] at hn
  rw [packXyn_toNat, opX_val, opY_val]
  omega

/-! ### Clearing the nibble that a row ignores (R67) -/

theorem packXyn_and_lowCleared (p : BitVec 4) (x y : Reg) (n : Fin 16) :
    packXyn p x y n &&& 0xFFF0 = packXyn p x y 0 := by
  have h : (p ++ regBits x ++ regBits y ++ regBits n) &&&
      (BitVec.allOnes 4 ++ BitVec.allOnes 4 ++ BitVec.allOnes 4 ++ 0#4) = p ++ regBits x ++ regBits y ++ 0#4 := by
    simp only [BitVec.and_append, BitVec.and_allOnes, BitVec.and_zero]
  exact h

theorem packXyn_and_yCleared (p : BitVec 4) (x y : Reg) (n : Fin 16) :
    packXyn p x y n &&& 0xFF0F = packXyn p x 0 n := by
  have h : (p ++ regBits x ++ regBits y ++ regBits n) &&&
      (BitVec.allOnes 4 ++ BitVec.allOnes 4 ++ 0#4 ++ BitVec.allOnes 4) = p ++ regBits x ++ 0#4 ++ regBits n := by
    simp only [BitVec.and_append, BitVec.and_allOnes, BitVec.and_zero]
  exact h

theorem packXy_fields {op : Word} {p : BitVec 4} (hp : (opP op).toNat = p.toNat) :
    packXyn p (opX op) (opY op) 0 = op &&& 0xFFF0 := by
  rw [← packXyn_and_lowCleared p (opX op) (opY op) (opN op), packXyn_fields hp rfl, and_allBits]

theorem packXn_fields {op : Word} {p : BitVec 4} {n : Fin 16} (hp : (opP op).toNat = p.toNat)
    (hn : (opN op).val = n.val) : packXyn p (opX op) 0 n = op &&& 0xFF0F := by
  rw [← packXyn_and_yCleared p (opX op) (opY op) n, packXyn_fields hp hn, and_allBits]

/-! ### Encoding a decoded instruction -/

/-- The encoder gives the word back, the ignored nibble cleared. -/
def EncodesBack (op : Word) (i : Instr) : Prop := WellFormed i ∧ encode i = op &&& Machine.usedBits i

theorem decode0_encodesBack {op : Word} {i : Instr} (hp : (opP op).toNat = 0x0) (h : decode0 op = .ok i) :
    EncodesBack op i := by
  unfold decode0 at h
  split at h
  · next hcls => cases h; subst hcls; exact ⟨rfl, rfl⟩
  · split at h
    · next hret => cases h; subst hret; exact ⟨rfl, rfl⟩
    · next hcls hret =>
      cases h
      have hword : packNnn 0x0 (opNnn op) = op := (packNnn_fields hp).trans (and_allBits op)
      have hcls' : opNnn op ≠ 0x0E0 := fun e => hcls (by rw [← hword, e]; rfl)
      have hret' : opNnn op ≠ 0x0EE := fun e => hret (by rw [← hword, e]; rfl)
      exact ⟨wellFormed_sys_iff.mpr ⟨hcls', hret'⟩, packNnn_fields hp⟩

theorem decode8_encodesBack {op : Word} {i : Instr} (hp : (opP op).toNat = 0x8) (h : decode8 op = .ok i) :
    EncodesBack op i := by
  unfold decode8 at h
  split at h
  -- `SHR` and `SHL`: the `y` nibble is ignored (R67)
  case h_7 hn | h_9 hn => cases h; exact ⟨rfl, packXn_fields hp hn⟩
  case h_10 => cases h
  all_goals cases h; exact ⟨rfl, packXyn_fields hp ‹_›⟩

theorem decodeE_encodesBack {op : Word} {i : Instr} (hp : (opP op).toNat = 0xE) (h : decodeE op = .ok i) :
    EncodesBack op i := by
  unfold decodeE at h
  split at h
  case h_3 => cases h
  all_goals cases h; exact ⟨rfl, packXkk_fields hp ‹_›⟩

theorem decodeF_encodesBack {op : Word} {i : Instr} (hp : (opP op).toNat = 0xF) (h : decodeF op = .ok i) :
    EncodesBack op i := by
  unfold decodeF at h
  split at h
  case h_10 => cases h
  all_goals cases h; exact ⟨rfl, packXkk_fields hp ‹_›⟩

theorem decode_encodesBack {op : Word} {i : Instr} (h : decode op = .ok i) : EncodesBack op i := by
  unfold decode at h
  split at h
  case h_1 hp => exact decode0_encodesBack hp h
  case h_9 hp => exact decode8_encodesBack hp h
  case h_15 hp => exact decodeE_encodesBack hp h
  case h_16 hp => exact decodeF_encodesBack hp h
  case h_17 => cases h
  -- families 1, 2, A, B: the operand `nnn`
  case h_2 hp | h_3 hp | h_11 hp | h_12 hp => cases h; exact ⟨rfl, packNnn_fields hp⟩
  -- families 5 and 9: the low nibble is ignored (R67)
  case h_6 hp | h_10 hp => cases h; exact ⟨rfl, packXy_fields hp⟩
  -- family D: the operands `x`, `y`, `n`
  case h_14 hp => cases h; exact ⟨rfl, packXyn_fields hp rfl⟩
  -- families 3, 4, 6, 7, C: the operands `x` and `kk`
  all_goals cases h; exact ⟨rfl, packXkk_fields ‹_› rfl⟩

/-- Settles O3: each row keeps every field of its word but the nibble that it ignores. -/
theorem decodedWordEncodesBack : Obligations.DecodedWordEncodesBack := fun _ _ h => decode_encodesBack h

/-! ### The unknown words -/

theorem decode0_ne_error (op : Word) (r : Reject) : decode0 op ≠ .error r := by
  unfold decode0
  split
  · exact nofun
  · split <;> exact nofun

theorem decode8_error_iff {op : Word} {r : Reject} :
    decode8 op = .error r ↔ r = .unknownOpcode op ∧ op.toNat % 16 ∈ [0x8, 0x9, 0xA, 0xB, 0xC, 0xD, 0xF] := by
  have hn : op.toNat % 16 < 16 := Nat.mod_lt _ (by decide)
  rw [decode8, opN_val]
  generalize op.toNat % 16 = n at hn
  interval_cases n <;> simp [eq_comm]

theorem decodeE_error_iff {op : Word} {r : Reject} :
    decodeE op = .error r ↔ r = .unknownOpcode op ∧ op.toNat % 256 ∉ [0x9E, 0xA1] := by
  rw [decodeE, opKk_toNat]
  split <;> simp_all [eq_comm]

theorem decodeF_error_iff {op : Word} {r : Reject} :
    decodeF op = .error r ↔
      r = .unknownOpcode op ∧ op.toNat % 256 ∉ [0x07, 0x0A, 0x15, 0x18, 0x1E, 0x29, 0x33, 0x55, 0x65] := by
  rw [decodeF, opKk_toNat]
  split <;> simp_all [eq_comm]

/-- Settles O4: the families 8, E and F reject the codes that they do not list, and no other family rejects a word. -/
theorem unknownWordsAreExactlyThoseListed : Obligations.UnknownWordsAreExactlyThoseListed := by
  intro op r
  have hp : op.toNat / 4096 < 16 := by have := op.isLt; omega
  rw [decode, opP_toNat]
  generalize op.toNat / 4096 = p at hp
  match p, hp with
  | 0x0, _ => simp [decode0_ne_error]
  | 0x8, _ => simp only [decode8_error_iff]; simp
  | 0xE, _ => simp only [decodeE_error_iff]; simp
  | 0xF, _ => simp only [decodeF_error_iff]; simp
  | 0x1, _ | 0x2, _ | 0x3, _ | 0x4, _ | 0x5, _ | 0x6, _ | 0x7, _ | 0x9, _ | 0xA, _ | 0xB, _ | 0xC, _ | 0xD, _ => simp
  | n + 16, h => omega

/-- Settles O1: each word is decoded as it stands. -/
theorem specWordsDecode : Obligations.SpecWordsDecode := by
  unfold Obligations.SpecWordsDecode
  decide

end Sys2Proof
end

section
/-! What an instruction does, said once: it raises the error that `faultOf` names, or else answers the state that
`effect` gives with `PC` where `pcAfter` puts it. Every statement about all instructions is read off from this. -/

namespace Sys2Proof.Machine

/-! ### The effect of an instruction -/

/-- What an instruction that passes its check writes besides `PC`, on the draw `d`: nothing for `SYS`, the jumps and
the skips. -/
def effect (d : Byte) : Instr → State → State
  | .cls, s => s.setDisp (Vector.replicate 32 0)
  | .ret, s => s.popped
  | .call _, s => { s with stack := s.stack.setIfInBounds s.sp.val (s.pc + 2), sp := s.sp + 1 }
  | .ldImm x kk, s => s.setReg x kk
  | .addImm x kk, s => s.setReg x (s.reg x + kk)
  | .ldReg x y, s => s.setReg x (s.reg y)
  | .orReg x y, s => s.setReg x (s.reg x ||| s.reg y)
  | .andReg x y, s => s.setReg x (s.reg x &&& s.reg y)
  | .xorReg x y, s => s.setReg x (s.reg x ^^^ s.reg y)
  | .addReg x y, s => s.setResultFlag x (s.reg x + s.reg y) (carry (s.reg x) (s.reg y))
  | .sub x y, s => s.setResultFlag x (s.reg x - s.reg y) (noBorrow (s.reg x) (s.reg y))
  | .shr x, s => s.setResultFlag x (s.reg x >>> 1) (shiftedOutRight (s.reg x))
  | .subn x y, s => s.setResultFlag x (s.reg y - s.reg x) (noBorrow (s.reg y) (s.reg x))
  | .shl x, s => s.setResultFlag x (s.reg x <<< 1) (shiftedOutLeft (s.reg x))
  | .ldI nnn, s => s.setI (zextAddr nnn)
  | .rnd x kk, s => { s.setReg x (d &&& kk) with draws := s.draws + 1 }
  | .drw x y n, s => (s.setDisp (s.drawn x y n.val).1).setFlag (flagByte (s.drawn x y n.val).2)
  | .ldVxDt x, s => s.setReg x s.dt
  | .ldVxK x, s => s.setRegs (s.leastKey.elim s.v fun k => s.v.set x (keyByte k))
  | .ldDtVx x, s => s.setDt (s.reg x)
  | .ldStVx x, s => s.setSt (s.reg x)
  | .addI x, s => s.setI (s.i + zextByte (s.reg x))
  | .ldF x, s => s.setI (glyphAddr (s.reg x))
  | .ldB x, s => s.setMem (s.mem.writeBlock s.base (decimalDigits (s.reg x)))
  | .ldMemVx x, s => s.setMem (s.mem.writeBlock s.base (s.regsUpTo x))
  | .ldVxMem x, s => s.setRegs (loadRegs s.v 0 (s.mem.readBlock s.base (x.val + 1)))
  | _, s => s

/-! ### An outcome by a check -/

/-- The outcome of a check: the error it finds, or else the next state `t`. -/
def outcome (f : Option Fault) (t : State) : Result := f.elim (.next t) .fault

@[simp] theorem outcome_none (t : State) : outcome none t = .next t := rfl

@[simp] theorem outcome_some (f : Fault) (t : State) : outcome (some f) t = .fault f := rfl

theorem outcome_eq_next_iff {f : Option Fault} {t u : State} : outcome f t = .next u ↔ f = none ∧ u = t := by
  cases f with
  | none => simp [eq_comm]
  | some e => simp

theorem outcome_eq_fault_iff {f : Option Fault} {t : State} {e : Fault} : outcome f t = .fault e ↔ f = some e := by
  cases f with
  | none => simp
  | some e' => simp

theorem outcome_ne_refused (f : Option Fault) (t : State) (r : Refusal) : outcome f t ≠ .refused r := by
  cases f with
  | none => simp
  | some e => simp

/-! ### The checks -/

theorem checkAccess_eq_outcome {base n : Nat} {p : Prop} [Decidable p] (hp : p ↔ n ≠ 0 ∧ 0x1000 < base + n) (t : State) :
    checkAccess base n (.next t) = outcome (if p then some (.addressFault (max base 0x1000)) else none) t := by
  by_cases h : p
  · rw [if_pos h, checkAccess_raises (hp.mp h).1 (hp.mp h).2, outcome_some]
  · rw [if_neg h, checkAccess_ok (by rw [hp] at h; omega), outcome_none]

theorem State.pushed_eq {s : State} (h : s.sp.val < 16) (a : Word) :
    s.pushed a h = { s with stack := s.stack.setIfInBounds s.sp.val a, sp := s.sp + 1 } := by
  have hsp : (⟨s.sp.val + 1, by omega⟩ : Fin 17) = s.sp + 1 := by
    apply Fin.ext; rw [Fin.val_add]; show s.sp.val + 1 = (s.sp.val + 1) % 17; omega
  have hstack : s.stack.set s.sp.val a h = s.stack.setIfInBounds s.sp.val a := by
    apply Vector.ext; intro j hj; rw [Vector.getElem_set, Vector.getElem_setIfInBounds]
  rw [State.pushed, hsp, hstack]

theorem execRet_eq (s : State) :
    execRet s = outcome (faultOf .ret s) (s.popped.jump (pcAfter .ret s)) := by
  by_cases h : s.sp.val = 0
  · rw [execRet, State.pop_empty h, faultOf, if_pos h, outcome_some]
  · have hpos : 0 < s.sp.val := by omega
    rw [execRet, State.pop_ok hpos, faultOf, if_neg h, pcAfter, dif_pos hpos, outcome_none]

theorem zextAddr_eq_ofNat (nnn : Addr12) : zextAddr nnn = BitVec.ofNat 16 nnn.toNat := by
  apply BitVec.eq_of_toNat_eq
  have hnnn := nnn.isLt
  rw [zextAddr_toNat, BitVec.toNat_ofNat]; omega

theorem execCall_eq (d : Byte) (nnn : Addr12) (s : State) :
    execCall nnn s = outcome (faultOf (.call nnn) s) ((effect d (.call nnn) s).jump (pcAfter (.call nnn) s)) := by
  by_cases h : s.sp.val = 16
  · rw [execCall, State.push_full h, faultOf, if_pos h, outcome_some]
  · rw [execCall, State.push_ok (by omega), faultOf, if_neg h, outcome_none, State.pushed_eq, zextAddr_eq_ofNat]; rfl

theorem jpV0_target (nnn : Addr12) (b : Byte) :
    zextAddr nnn + zextByte b = BitVec.ofNat 16 (nnn.toNat + b.toNat) := by
  apply BitVec.eq_of_toNat_eq
  have hnnn := nnn.isLt
  have hb := b.isLt
  rw [zextAddr_add_zextByte_toNat, BitVec.toNat_ofNat]; omega

/-- The two key skips at once: `want` is the level on which the instruction skips. -/
theorem withKey_skip_eq (v : Byte) (s : State) (want : Bool) :
    withKey v (fun k => .next (s.skipIf (s.pressed k == want))) =
      outcome (if 15 < v.toNat then some (.keyIndexFault v) else none)
        (s.jump (if ∃ k : Reg, k.val = v.toNat ∧ s.pressed k = want then s.pc + 4 else s.pc + 2)) := by
  by_cases h : 15 < v.toNat
  · rw [withKey_raises h, if_pos h, outcome_some]
  · have hv : v.toNat < 16 := by omega
    have hkey : (∃ k : Reg, k.val = v.toNat ∧ s.pressed k = want) ↔ s.pressed ⟨v.toNat, hv⟩ = want :=
      ⟨fun ⟨k, hk, hp⟩ => by rwa [show k = ⟨v.toNat, hv⟩ from Fin.ext hk] at hp, fun hp => ⟨_, rfl, hp⟩⟩
    rw [withKey_ok hv, if_neg h, outcome_none, State.skipIf_eq_jump]
    simp only [hkey, beq_iff_eq]

theorem execSkp_eq (x : Reg) (s : State) :
    execSkp x s = outcome (faultOf (.skp x) s) (s.jump (pcAfter (.skp x) s)) := by
  rw [execSkp, faultOf, pcAfter, ← withKey_skip_eq (s.reg x) s true]
  simp

theorem execSknp_eq (x : Reg) (s : State) :
    execSknp x s = outcome (faultOf (.sknp x) s) (s.jump (pcAfter (.sknp x) s)) := by
  rw [execSknp, faultOf, pcAfter, ← withKey_skip_eq (s.reg x) s false]
  simp

theorem pcAfter_ldVxK_of_none {s : State} (h : s.leastKey = none) (x : Reg) : pcAfter (.ldVxK x) s = s.pc := by
  have hup : ¬ ∃ k : Reg, s.pressed k = true := by simp [State.leastKey_none.mp h]
  rw [pcAfter, if_neg hup]

theorem pcAfter_ldVxK_of_some {s : State} {k : Reg} (h : s.leastKey = some k) (x : Reg) :
    pcAfter (.ldVxK x) s = s.pc + 2 := by
  have hdown : ∃ k : Reg, s.pressed k = true := ⟨k, (State.leastKey_some h).1⟩
  rw [pcAfter, if_pos hdown]

theorem effect_ldVxK_of_none {s : State} (h : s.leastKey = none) (d : Byte) (x : Reg) :
    effect d (.ldVxK x) s = s := by
  rw [effect, h]; rfl

theorem effect_ldVxK_of_some {s : State} {k : Reg} (h : s.leastKey = some k) (d : Byte) (x : Reg) :
    effect d (.ldVxK x) s = s.setReg x (keyByte k) := by
  rw [effect, h]; rfl

theorem execLdVxK_eq (d : Byte) (x : Reg) (s : State) :
    execLdVxK x s = .next ((effect d (.ldVxK x) s).jump (pcAfter (.ldVxK x) s)) := by
  cases hk : s.leastKey with
  | none => rw [effect_ldVxK_of_none hk, pcAfter_ldVxK_of_none hk, execLdVxK, hk]; rfl
  | some k => rw [effect_ldVxK_of_some hk, pcAfter_ldVxK_of_some hk, execLdVxK, hk]; rfl

/-! ### Every instruction is its check, its effect and its `PC` -/

theorem execOn_eq (d : Byte) (i : Instr) (s : State) :
    execOn d i s = outcome (faultOf i s) ((effect d i s).jump (pcAfter i s)) := by
  cases i with
  | ret => exact execRet_eq s
  | call nnn => exact execCall_eq d nnn s
  | seImm x kk => exact congrArg Host.Outcome.next (State.skipIf_beq s (s.reg x) kk)
  | seReg x y => exact congrArg Host.Outcome.next (State.skipIf_beq s (s.reg x) (s.reg y))
  | sneImm x kk =>
    show Host.Outcome.next _ = _
    rw [State.skipIf_bne, ← ite_not]; rfl
  | sneReg x y =>
    show Host.Outcome.next _ = _
    rw [State.skipIf_bne, ← ite_not]; rfl
  | jp nnn => exact congrArg (fun a => Host.Outcome.next (s.jump a)) (zextAddr_eq_ofNat nnn)
  | jpV0 nnn => exact congrArg (fun a => Host.Outcome.next (s.jump a)) (jpV0_target nnn (s.reg 0))
  | drw x y n => exact checkAccess_eq_outcome (by rw [State.base_eq]; omega) _
  | skp x => exact execSkp_eq x s
  | sknp x => exact execSknp_eq x s
  | ldVxK x => exact execLdVxK_eq d x s
  | ldB x => exact checkAccess_eq_outcome (by rw [State.base_eq, decimalDigits_length]; omega) _
  | ldMemVx x => exact checkAccess_eq_outcome (by rw [State.base_eq, State.regsUpTo_length]; omega) _
  | ldVxMem x => exact checkAccess_eq_outcome (by rw [State.base_eq]; omega) _
  | _ => rfl

/-- The machine's own meaning is the one on the next free draw (log entry 1). -/
theorem exec_eq_execOn (i : Instr) (s : State) : exec i s = execOn (Config.rnd s.draws) i s := by
  cases i with
  | _ => rfl

theorem exec_eq (i : Instr) (s : State) :
    exec i s = outcome (faultOf i s) ((effect (Config.rnd s.draws) i s).jump (pcAfter i s)) := by
  rw [exec_eq_execOn, execOn_eq]

theorem exec_next_iff {i : Instr} {s t : State} :
    exec i s = .next t ↔ faultOf i s = none ∧ t = (effect (Config.rnd s.draws) i s).jump (pcAfter i s) := by
  rw [exec_eq, outcome_eq_next_iff]

theorem exec_fault_iff {i : Instr} {s : State} {f : Fault} : exec i s = .fault f ↔ faultOf i s = some f := by
  rw [exec_eq, outcome_eq_fault_iff]

theorem execOn_next_iff {d : Byte} {i : Instr} {s t : State} :
    execOn d i s = .next t ↔ faultOf i s = none ∧ t = (effect d i s).jump (pcAfter i s) := by
  rw [execOn_eq, outcome_eq_next_iff]

/-- Settles O9: an instruction's outcome is that of its one check. -/
theorem everyInstructionCompletesUnlessItsCheckFails : Obligations.EveryInstructionCompletesUnlessItsCheckFails := by
  intro i s
  exact ⟨fun h => ⟨_, exec_next_iff.mpr ⟨h, rfl⟩⟩, fun _ h => exec_fault_iff.mpr h⟩

end Sys2Proof.Machine
end

section
/-! Frames over all instructions (10_state.md, 20_memory.md section 5, 40_step_cycle.md sections 4 and 6): what the effect
of an instruction leaves alone, one piece of state after the other. -/

namespace Sys2Proof.Machine

/-! ### Registers -/

@[simp] theorem State.reg_setRegs (s : State) (w : Vector Byte 16) (r : Reg) : (s.setRegs w).reg r = w[r] := rfl

theorem State.reg_setResultFlag_ne (s : State) {x r : Reg} (hx : (r == x) = false) (hvf : r ≠ 15) (b f : Byte) :
    (s.setResultFlag x b f).reg r = s.reg r := by
  rw [State.reg_setResultFlag, if_neg hvf, if_neg (beq_eq_false_iff_ne.mp hx)]

theorem State.reg_setReg_ne (s : State) {x r : Reg} (hx : (r == x) = false) (b : Byte) :
    (s.setReg x b).reg r = s.reg r := by
  rw [State.reg_setReg, if_neg (beq_eq_false_iff_ne.mp hx)]

theorem effect_reg_of_not_dest {d : Byte} {i : Instr} {s : State} {r : Reg} (hdest : namesDest i r = false)
    (hflag : r = 15 → setsFlag i = false) : (effect d i s).reg r = s.reg r := by
  have hvf (h : setsFlag i = true) : r ≠ 15 := fun e => by rw [hflag e] at h; cases h
  cases i with
  | ldImm | addImm | ldReg | orReg | andReg | xorReg | rnd | ldVxDt => exact State.reg_setReg_ne s hdest _
  | addReg | sub | shr | subn | shl => exact State.reg_setResultFlag_ne s hdest (hvf rfl) _ _
  | drw => exact State.reg_setReg_ne _ (beq_eq_false_iff_ne.mpr (hvf rfl)) _
  | ldVxK x =>
    cases hk : s.leastKey with
    | none => rw [effect_ldVxK_of_none hk]
    | some k => rw [effect_ldVxK_of_some hk, State.reg_setReg_ne s hdest]
  | ldVxMem x =>
    have hr : ¬ r.val < x.val + 1 := by
      have hgt : ¬ r ≤ x := of_decide_eq_false hdest
      rw [Fin.le_def] at hgt; omega
    rw [effect, State.reg_setRegs, getElem_loadRegs_readBlock, if_neg hr]
  | _ => rfl

/-- Settles O36: each register write names its register, and VF besides only for the six flag instructions. -/
theorem onlyDestinationRegistersChange : Obligations.OnlyDestinationRegistersChange := by
  intro i s t r h hdest hflag
  obtain ⟨-, rfl⟩ := exec_next_iff.mp h
  rw [State.reg_jump, effect_reg_of_not_dest hdest hflag]

theorem State.reg_setResultFlag_vf (s : State) (x : Reg) (b f : Byte) : (s.setResultFlag x b f).reg 15 = f := by
  rw [State.reg_setResultFlag, if_pos rfl]

/-- Each of the six writes VF last, with a flag. -/
theorem effect_vf_of_setsFlag {d : Byte} {i : Instr} {s : State} (h : setsFlag i = true) :
    ∃ c, (effect d i s).reg 15 = flagByte c := by
  cases i with
  | addReg | sub | shr | subn | shl => exact ⟨_, State.reg_setResultFlag_vf s _ _ _⟩
  | drw => exact ⟨_, (State.reg_setReg ..).trans (if_pos rfl)⟩
  | _ => cases h

/-- Settles O37: what VF holds is a flag, and a flag is 0 or 1. -/
theorem flagIsZeroOrOne : Obligations.FlagIsZeroOrOne := by
  intro i s t hflag h
  obtain ⟨-, rfl⟩ := exec_next_iff.mp h
  obtain ⟨c, hc⟩ := effect_vf_of_setsFlag hflag
  rw [State.reg_jump, hc]
  exact flagByte_bit c

/-! ### Memory -/

theorem effect_read_of_not_stored {d : Byte} {i : Instr} {s : State} {a : Nat} (h : storesTo i s a = false) :
    (effect d i s).mem.read a = s.mem.read a := by
  cases i with
  | ldB x => exact Memory.read_writeBlock_outside (of_decide_eq_false h)
  | ldMemVx x =>
    refine Memory.read_writeBlock_outside ?_
    rw [State.regsUpTo_length]
    exact of_decide_eq_false h
  | _ => rfl

/-- Settles O38: two instructions write memory, each one block, and a block write leaves every other byte alone. -/
theorem onlyStoredBytesChange : Obligations.OnlyStoredBytesChange := by
  intro i s t a h hstore
  obtain ⟨-, rfl⟩ := exec_next_iff.mp h
  exact effect_read_of_not_stored hstore

/-! ### The other pieces of state -/

section
variable {d : Byte} {i : Instr} {s : State}

theorem effect_i_ne (h : (effect d i s).i ≠ s.i) :
    (∃ nnn, i = .ldI nnn) ∨ (∃ x, i = .addI x) ∨ ∃ x, i = .ldF x := by
  cases i with
  | ldI nnn => exact .inl ⟨nnn, rfl⟩
  | addI x => exact .inr (.inl ⟨x, rfl⟩)
  | ldF x => exact .inr (.inr ⟨x, rfl⟩)
  | _ => exact absurd rfl h

theorem effect_stack_ne (h : (effect d i s).stack ≠ s.stack) : ∃ nnn, i = .call nnn := by
  cases i with
  | call nnn => exact ⟨nnn, rfl⟩
  | _ => exact absurd rfl h

theorem effect_sp_ne (h : (effect d i s).sp ≠ s.sp) : i = .ret ∨ ∃ nnn, i = .call nnn := by
  cases i with
  | ret => exact .inl rfl
  | call nnn => exact .inr ⟨nnn, rfl⟩
  | _ => exact absurd rfl h

theorem effect_disp_ne (h : (effect d i s).disp ≠ s.disp) : i = .cls ∨ ∃ x y n, i = .drw x y n := by
  cases i with
  | cls => exact .inl rfl
  | drw x y n => exact .inr ⟨x, y, n, rfl⟩
  | _ => exact absurd rfl h

theorem effect_dt_ne (h : (effect d i s).dt ≠ s.dt) : ∃ x, i = .ldDtVx x := by
  cases i with
  | ldDtVx x => exact ⟨x, rfl⟩
  | _ => exact absurd rfl h

theorem effect_st_ne (h : (effect d i s).st ≠ s.st) : ∃ x, i = .ldStVx x := by
  cases i with
  | ldStVx x => exact ⟨x, rfl⟩
  | _ => exact absurd rfl h

theorem effect_key : (effect d i s).key = s.key := by
  cases i with
  | _ => rfl

theorem effect_draws_ne (h : (effect d i s).draws ≠ s.draws) : ∃ x kk, i = .rnd x kk := by
  cases i with
  | rnd x kk => exact ⟨x, kk, rfl⟩
  | _ => exact absurd rfl h

end

/-- Settles O39: the effects are read off piece by piece, and a jump writes `PC` alone. -/
theorem stateHasNoOtherWriters : Obligations.StateHasNoOtherWriters := by
  intro i s t h
  obtain ⟨-, rfl⟩ := exec_next_iff.mp h
  exact ⟨effect_i_ne, effect_stack_ne, effect_sp_ne, effect_disp_ne, effect_dt_ne, effect_st_ne, effect_key,
    effect_draws_ne⟩

/-! ### The program counter -/

/-- Settles O40: the meaning of every instruction ends with the jump that the table gives, and an error changes
nothing. -/
theorem pcGoesByTheTable : Obligations.PcGoesByTheTable := by
  refine ⟨fun i s t h => ?next, fun d s e h => ?error⟩
  case next =>
    obtain ⟨-, rfl⟩ := exec_next_iff.mp h
    exact State.jump_pc _ _
  case error => rw [errorsChangeNothing (.step d) s e h]

/-! ### The draws -/

theorem faultOf_draws (i : Instr) (s : State) (n : Nat) : faultOf i { s with draws := n } = faultOf i s := by
  cases i with
  | _ => rfl

theorem pcAfter_draws (i : Instr) (s : State) (n : Nat) : pcAfter i { s with draws := n } = pcAfter i s := by
  cases i with
  | _ => rfl

theorem effect_draws {i : Instr} (h : ∀ x kk, i ≠ .rnd x kk) (d d' : Byte) (s : State) (n : Nat) :
    effect d i { s with draws := n } = { effect d' i s with draws := n } := by
  cases i with
  | rnd x kk => exact absurd rfl (h x kk)
  | _ => rfl

/-- Settles O41: check, effect and `PC` are those of the state with its own count of draws. -/
theorem onlyRndSeesDraws : Obligations.OnlyRndSeesDraws := by
  intro i s n hrnd
  refine ⟨fun t h => ?next, fun f h => ?fault⟩
  case next =>
    obtain ⟨hcheck, rfl⟩ := exec_next_iff.mp h
    rw [exec_next_iff, faultOf_draws i s n, pcAfter_draws i s n, effect_draws hrnd (Config.rnd n) (Config.rnd s.draws)]
    exact ⟨hcheck, rfl⟩
  case fault => rwa [exec_fault_iff, faultOf_draws, ← exec_fault_iff]

end Sys2Proof.Machine
end

section
/-! The STEP operation (40_step_cycle.md, 60_exceptions.md): its outcome is that of one check, `stepFault`, so which
errors it raises, and on what they depend, is read off from that check. -/

namespace Sys2Proof.Machine

/-! ### The phases -/

theorem State.fetch_inside {s : State} (h : s.pc.toNat ≤ 0xFFE) (run : Word → Result) : s.fetch run = run s.fetchWord :=
  checkAccess_ok (by omega) _

theorem State.fetch_outside {s : State} (h : 0xFFE < s.pc.toNat) (run : Word → Result) :
    s.fetch run = .fault (.addressFault (max s.pc.toNat 0x1000)) :=
  checkAccess_raises (by decide) (by omega) _

theorem stepFault_outside {s : State} (h : 0xFFE < s.pc.toNat) :
    stepFault s = some (.addressFault (max s.pc.toNat 0x1000)) :=
  if_pos h

theorem stepFault_of_ok {s : State} {i : Instr} (hpc : s.pc.toNat ≤ 0xFFE) (hi : decode s.fetchWord = .ok i) :
    stepFault s = faultOf i s := by
  have hword : composeWord (s.byteAt s.pc.toNat) (s.byteAt (s.pc.toNat + 1)) = s.fetchWord := rfl
  rw [stepFault, if_neg (Nat.not_lt.mpr hpc), hword, hi]

theorem stepFault_of_error {s : State} {r : Reject} (hpc : s.pc.toNat ≤ 0xFFE) (hr : decode s.fetchWord = .error r) :
    stepFault s = some (.unknownOpcode s.fetchWord) := by
  have hword : composeWord (s.byteAt s.pc.toNat) (s.byteAt (s.pc.toNat + 1)) = s.fetchWord := rfl
  rw [stepFault, if_neg (Nat.not_lt.mpr hpc), hword, hr]

/-- The state after a STEP on the draw `d` that raises no error; where the word at `PC` is unknown, any state will do. -/
def stepped (d : Byte) (s : State) : State :=
  match decode s.fetchWord with
  | .ok i => (effect d i s).jump (pcAfter i s)
  | .error _ => s

theorem opStep_eq (d : Byte) (s : State) : opStep d s = outcome (stepFault s) (stepped d s) := by
  rcases Nat.lt_or_ge 0xFFE s.pc.toNat with hout | hin
  · rw [opStep, State.fetch_outside hout, stepFault_outside hout, outcome_some]
  · rw [opStep, State.fetch_inside hin, stepped]
    cases hword : decode s.fetchWord with
    | ok i => rw [stepFault_of_ok hin hword]; exact execOn_eq d i s
    | error r => rw [stepFault_of_error hin hword]; rfl

/-- After one and the same fetch and decoding, STEP and STEP on the free draw run one meaning. -/
theorem step_eq_opStep (s : State) : step s = opStep (Config.rnd s.draws) s := by
  unfold step opStep
  congr 1
  funext op
  unfold runWord
  cases decode op with
  | ok i => exact exec_eq_execOn i s
  | error r => rfl

theorem step_eq (s : State) : step s = outcome (stepFault s) (stepped (Config.rnd s.draws) s) := by
  rw [step_eq_opStep, opStep_eq]

/-- A STEP inside memory is the meaning of the instruction decoded. -/
theorem step_decoded {s : State} {op : Word} {i : Instr} (hpc : s.pc.toNat ≤ 0xFFE) (hop : OpcodeAt s op)
    (hi : decode op = .ok i) : step s = exec i s := by
  rw [step_eq_runWord hpc hop, runWord, hi]

theorem opStep_decoded {s : State} {op : Word} {i : Instr} (hpc : s.pc.toNat ≤ 0xFFE) (hop : OpcodeAt s op)
    (hi : decode op = .ok i) (d : Byte) : opStep d s = execOn d i s := by
  rw [opStep, State.fetch_inside hpc, fetchWord_eq hop, hi]

/-! ### The obligations about one STEP -/

/-- Settles O5: what decodes is well-formed, and inside memory STEP is the meaning of what was decoded. -/
theorem stepRunsDecodedInstruction : Obligations.StepRunsDecodedInstruction := by
  intro s op i hpc hop hi
  exact ⟨(decode_encodesBack hi).1, step_decoded hpc hop hi⟩

/-- Settles O6: the lowest address above 0xFFF is 0x1000 if the first byte is still inside, else the first. -/
theorem fetchOutsideMemoryFaults : Obligations.FetchOutsideMemoryFaults := by
  intro s hpc
  have hmax : max s.pc.toNat 0x1000 = if s.pc.toNat = 0xFFF then 0x1000 else s.pc.toNat := by split <;> omega
  rw [step, State.fetch_outside hpc, hmax]

/-- Settles O7: the fetch is inside memory, so the decoder's rejection is the error raised. -/
theorem unknownWordFaults : Obligations.UnknownWordFaults := by
  intro s op r hpc hop hr
  rw [step_eq_runWord hpc hop, runWord, hr]
  rfl

/-- Settles O8: a STEP is the outcome of `stepFault`, and such an outcome is never a refusal. -/
theorem stepErrorsAreExactlyTheTable : Obligations.StepErrorsAreExactlyTheTable := by
  intro s
  rw [step_eq]
  refine ⟨fun f => outcome_eq_fault_iff, ⟨fun h => ?_, fun ⟨t, ht⟩ => ?_⟩, outcome_ne_refused _ _⟩
  · exact ⟨_, outcome_eq_next_iff.mpr ⟨h, rfl⟩⟩
  · exact (outcome_eq_next_iff.mp ht).1

/-- Settles O43: the free value is the draw, and a draw is looked at by `RND` alone. -/
theorem stepIsStepOnFreeDraw : Obligations.StepIsStepOnFreeDraw := by
  refine ⟨step_eq_opStep, fun s d op i hpc hop hi hrnd => ?_⟩
  rw [opStep_decoded hpc hop hi, step_decoded hpc hop hi, execOn_eq_exec hrnd]

/-! ### What the check of a STEP looks at -/

theorem faultOf_congr {s t : State} (i : Instr) (hv : t.v = s.v) (hi : t.i = s.i) (hsp : t.sp = s.sp) :
    faultOf i t = faultOf i s := by
  have hreg (x : Reg) : t.reg x = s.reg x := by rw [State.reg, hv, State.reg]
  cases i with
  | _ => simp only [faultOf, hreg, hi, hsp]

/-- The check of a STEP looks at neither keys nor timers nor display nor draws. -/
theorem stepFault_congr {s t : State} (hv : t.v = s.v) (hpc : t.pc = s.pc) (hi : t.i = s.i) (hsp : t.sp = s.sp)
    (hmem : t.mem = s.mem) : stepFault t = stepFault s := by
  simp only [stepFault, State.byteAt_eq, hpc, hmem, faultOf_congr _ hv hi hsp]

theorem opStep_fault_iff {d : Byte} {s : State} {e : Fault} : opStep d s = .fault e ↔ stepFault s = some e := by
  rw [opStep_eq, outcome_eq_fault_iff]

/-- Settles O58: neither a key nor a count of the timers is among the pieces that the check looks at. -/
theorem failedStepFailsTheSameWay : Obligations.FailedStepFailsTheSameWay := by
  intro s d d' e k p h
  have hcheck := opStep_fault_iff.mp h
  have hkey : stepFault (opSetKey k p s) = stepFault s := stepFault_congr rfl rfl rfl rfl rfl
  have htick : stepFault (opTick s) = stepFault s := stepFault_congr rfl rfl rfl rfl rfl
  exact ⟨opStep_fault_iff.mpr hcheck, opStep_fault_iff.mpr (hkey.trans hcheck),
    opStep_fault_iff.mpr (htick.trans hcheck)⟩

/-! ### The sound timer -/

theorem pcAfter_setSt (i : Instr) (s : State) (b : Byte) : pcAfter i (s.setSt b) = pcAfter i s := by
  cases i with
  | _ => rfl

/-- Only `LD ST,Vx` decides the sound timer; every other effect keeps the value given. -/
theorem effect_setSt (d : Byte) (i : Instr) (s : State) (b : Byte) :
    ∃ c, effect d i (s.setSt b) = (effect d i s).setSt c := by
  cases i with
  | ldStVx x => exact ⟨s.reg x, rfl⟩
  | _ => exact ⟨b, rfl⟩

theorem stepped_setSt (d : Byte) (s : State) (b : Byte) : ∃ c, stepped d (s.setSt b) = (stepped d s).setSt c := by
  have hword : (s.setSt b).fetchWord = s.fetchWord := rfl
  unfold stepped
  rw [hword]
  cases decode s.fetchWord with
  | ok i =>
    obtain ⟨c, hc⟩ := effect_setSt d i s b
    refine ⟨c, ?_⟩
    show (effect d i (s.setSt b)).jump (pcAfter i (s.setSt b)) = _
    rw [hc, pcAfter_setSt]; rfl
  | error r => exact ⟨b, rfl⟩

/-- Settles O42: the check does not look at `ST`, and the state answered differs in `ST` alone. -/
theorem soundTimerIsInvisible : Obligations.SoundTimerIsInvisible := by
  intro s b
  have hcheck : stepFault (s.setSt b) = stepFault s := stepFault_congr rfl rfl rfl rfl rfl
  have hstep : step (s.setSt b) = outcome (stepFault s) (stepped (Config.rnd s.draws) (s.setSt b)) := by
    rw [step_eq, hcheck]; rfl
  rw [step_eq]
  refine ⟨fun t h => ?next, fun f h => ?fault⟩
  case next =>
    obtain ⟨hnone, rfl⟩ := outcome_eq_next_iff.mp h
    obtain ⟨c, hc⟩ := stepped_setSt (Config.rnd s.draws) s b
    exact ⟨c, hstep.trans (outcome_eq_next_iff.mpr ⟨hnone, hc.symm⟩)⟩
  case fault => exact hstep.trans (outcome_eq_fault_iff.mpr (outcome_eq_fault_iff.mp h))

/-! ### Fixed points -/

theorem pc_ne_add_two (a : Word) : a ≠ a + 2 := by bv_omega

theorem pc_ne_skip (a : Word) (p : Prop) [Decidable p] : a ≠ if p then a + 4 else a + 2 := by
  split
  · bv_omega
  · exact pc_ne_add_two a

/-- An instruction that answers the state it began in is one of three: every other moves `PC`, or moves `SP`. -/
theorem exec_fixed_cases {i : Instr} {s : State} (h : exec i s = .next s) :
    (∃ nnn, i = .jp nnn ∧ nnn.toNat = s.pc.toNat) ∨
      (∃ nnn, i = .jpV0 nnn ∧ nnn.toNat + (s.reg 0).toNat = s.pc.toNat) ∨
      ∃ x, i = .ldVxK x ∧ ∀ k : Reg, s.key[k] = false := by
  obtain ⟨hcheck, hs⟩ := exec_next_iff.mp h
  have hpc : s.pc = pcAfter i s := congrArg State.pc hs
  have hsp : s.sp = (effect (Config.rnd s.draws) i s).sp :=
    (congrArg State.sp hs).trans (State.jump_sp _ _)
  cases i with
  | jp nnn =>
    refine .inl ⟨nnn, rfl, ?_⟩
    rw [hpc, pcAfter, ← zextAddr_eq_ofNat, zextAddr_toNat]
  | jpV0 nnn =>
    refine .inr (.inl ⟨nnn, rfl, ?_⟩)
    rw [hpc, pcAfter, ← jpV0_target, zextAddr_add_zextByte_toNat]
  | ldVxK x =>
    refine .inr (.inr ⟨x, rfl, ?_⟩)
    cases hk : s.leastKey with
    | none => exact State.leastKey_none.mp hk
    | some k => exact absurd (hpc.trans (pcAfter_ldVxK_of_some hk x)) (pc_ne_add_two _)
  | ret =>
    have hpos : s.sp.val ≠ 0 := fun h0 => by rw [faultOf, if_pos h0] at hcheck; cases hcheck
    have hpop : s.sp.val = s.sp.val - 1 := congrArg Fin.val hsp
    omega
  | call nnn =>
    have hpush : s.sp.val = (s.sp.val + 1) % 17 := congrArg Fin.val hsp
    omega
  | seImm | sneImm | seReg | sneReg | skp | sknp => exact absurd hpc (pc_ne_skip _ _)
  | _ => exact absurd hpc (pc_ne_add_two _)

theorem exec_jp_self {nnn : Addr12} {s : State} (h : nnn.toNat = s.pc.toNat) : exec (.jp nnn) s = .next s := by
  have htarget : zextAddr nnn = s.pc := BitVec.eq_of_toNat_eq (by rw [zextAddr_toNat, h])
  rw [exec_jp, htarget]; rfl

theorem exec_jpV0_self {nnn : Addr12} {s : State} (h : nnn.toNat + (s.reg 0).toNat = s.pc.toNat) :
    exec (.jpV0 nnn) s = .next s := by
  have htarget : zextAddr nnn + zextByte (s.reg 0) = s.pc :=
    BitVec.eq_of_toNat_eq (by rw [zextAddr_add_zextByte_toNat, h])
  rw [exec_jpV0, htarget]; rfl

theorem exec_ldVxK_held {s : State} (h : ∀ k : Reg, s.key[k] = false) (x : Reg) : exec (.ldVxK x) s = .next s := by
  have hnone : s.leastKey = none := State.leastKey_none.mpr h
  show execLdVxK x s = _
  rw [execLdVxK, hnone]

/-- Settles O48: the instruction that a fixed STEP executes leaves its state alone, and three can. -/
theorem fixedPointsOfStep : Obligations.FixedPointsOfStep := by
  intro s
  constructor
  · intro h
    obtain ⟨hpc, i, hi, hexec⟩ := step_next h
    refine ⟨hpc, s.fetchWord, opcodeAt_fetchWord s, ?_⟩
    rcases exec_fixed_cases hexec with ⟨nnn, rfl, hself⟩ | ⟨nnn, rfl, hself⟩ | ⟨x, rfl, hkeys⟩
    · exact .inl ⟨nnn, hi, hself⟩
    · exact .inr (.inl ⟨nnn, hi, hself⟩)
    · exact .inr (.inr ⟨x, hi, hkeys⟩)
  · rintro ⟨hpc, op, hop, ⟨nnn, hi, hself⟩ | ⟨nnn, hi, hself⟩ | ⟨x, hi, hkeys⟩⟩
    · rw [step_decoded hpc hop hi, exec_jp_self hself]
    · rw [step_decoded hpc hop hi, exec_jpV0_self hself]
    · rw [step_decoded hpc hop hi, exec_ldVxK_held hkeys]

theorem run_succ_of_step_next {M : Host.Core} {s t : M.State} (h : M.step s = .next t) (n : Nat) :
    M.run (n + 1) s = M.run n t := by
  rw [Host.Core.run, h]

/-- A run from a fixed point stays there. -/
theorem run_of_fixed {s : State} (h : step s = .next s) (n : Nat) : Sys2Proof.core.run n s = .next s := by
  induction n with
  | zero => rfl
  | succ n ih => exact (run_succ_of_step_next (M := Sys2Proof.core) h n).trans ih

/-- Settles O49: the held wait is a fixed point of STEP. -/
theorem keyWaitHoldsWithoutBound : Obligations.KeyWaitHoldsWithoutBound := by
  intro s op x n hpc hop hi hkeys
  have hfixed : step s = .next s := by rw [step_decoded hpc hop hi, exec_ldVxK_held hkeys]
  exact ⟨⟨s, run_of_fixed hfixed n⟩, run_of_fixed hfixed n⟩

end Sys2Proof.Machine
end

section
/-! The invariant (10_state.md sections 4 and 7): the effect of an instruction keeps each of its three parts, so every
STEP does, and so does every run of host operations from an INITIALIZE. -/

namespace Sys2Proof.Machine

/-! ### The program counter -/

theorem advance_le {a : Word} (h : a.toNat ≤ 0xFFE) : (a + 2).toNat ≤ 0x10FE ∧ (a + 4).toNat ≤ 0x10FE := by
  constructor <;> bv_omega

/-- The targets of the table of R83: at most 4 above a fetched `PC`, a 12-bit address, that plus a byte, or a return
address. -/
theorem pcAfter_le {s : State} (hinv : Invariant s) (hfetch : s.pc.toNat ≤ 0xFFE) (i : Instr) :
    (pcAfter i s).toNat ≤ 0x10FE := by
  obtain ⟨-, hpc, hstack⟩ := hinv
  obtain ⟨hnext, hskip⟩ := advance_le hfetch
  cases i with
  | jp nnn | call nnn =>
    have := nnn.isLt
    rw [pcAfter, BitVec.toNat_ofNat]; omega
  | jpV0 nnn =>
    have := nnn.isLt
    have := (s.reg 0).isLt
    rw [pcAfter, BitVec.toNat_ofNat]; omega
  | ret =>
    rw [pcAfter]
    split
    · next hpos =>
      have htop := (hstack ⟨s.sp.val - 1, by omega⟩ (by show s.sp.val - 1 < _; omega)).2
      exact htop.trans (by decide)
    · exact hpc
  | seImm | sneImm | seReg | sneReg | skp | sknp =>
    rw [pcAfter]
    split
    · exact hskip
    · exact hnext
  | ldVxK x =>
    rw [pcAfter]
    split
    · exact hnext
    · exact hpc
  | _ => exact hnext

/-! ### Memory -/

/-- The two stores pass their bounds check, so they write inside memory. -/
theorem effect_mem_wf {i : Instr} {s : State} (hwf : s.mem.wf = true) (hcheck : faultOf i s = none) (d : Byte) :
    (effect d i s).mem.wf = true := by
  cases i with
  | ldB x =>
    have hin : ¬ 0xFFF < s.i.toNat + 2 := fun h => by rw [faultOf, if_pos h] at hcheck; cases hcheck
    refine Memory.wf_writeBlock hwf ?_
    rw [State.base_eq, decimalDigits_length]; omega
  | ldMemVx x =>
    have hin : ¬ 0xFFF < s.i.toNat + x.val := fun h => by rw [faultOf, if_pos h] at hcheck; cases hcheck
    refine Memory.wf_writeBlock hwf ?_
    rw [State.base_eq, State.regsUpTo_length]; omega
  | _ => exact hwf

/-! ### Return addresses -/

/-- Every return address in use lies behind some fetched instruction (R93). -/
def ReturnsInRange (s : State) : Prop :=
  ∀ j : Fin 16, j.val < s.sp.val → 2 ≤ s.stack[j].toNat ∧ s.stack[j].toNat ≤ 0x1000

/-- `CALL` adds one entry, the address after it; `RET` only takes one out of use; no other instruction writes either. -/
theorem effect_returnsInRange {i : Instr} {s : State} (hret : ReturnsInRange s) (hfetch : s.pc.toNat ≤ 0xFFE)
    (d : Byte) : ReturnsInRange (effect d i s) := by
  cases i with
  | call nnn =>
    intro j hj
    have hsp : j.val < (s.sp.val + 1) % 17 := hj
    show 2 ≤ ((s.stack.setIfInBounds s.sp.val (s.pc + 2))[j.val]).toNat ∧
      ((s.stack.setIfInBounds s.sp.val (s.pc + 2))[j.val]).toNat ≤ 0x1000
    rw [Vector.getElem_setIfInBounds]
    split
    · constructor <;> bv_omega
    · exact hret j (by omega)
  | ret =>
    intro j hj
    have hsp : j.val < s.sp.val - 1 := hj
    exact hret j (by omega)
  | _ => exact hret

/-! ### Every instruction, STEP and host operation -/

theorem execOn_keeps_invariant {d : Byte} {i : Instr} {s t : State} (hinv : Invariant s) (hfetch : s.pc.toNat ≤ 0xFFE)
    (h : execOn d i s = .next t) : Invariant t := by
  obtain ⟨hcheck, rfl⟩ := execOn_next_iff.mp h
  have hpc := pcAfter_le hinv hfetch i
  obtain ⟨hwf, -, hret⟩ := hinv
  exact ⟨effect_mem_wf hwf hcheck d, hpc, effect_returnsInRange hret hfetch d⟩

theorem opStep_keeps_invariant {d : Byte} {s t : State} (hinv : Invariant s) (h : opStep d s = .next t) :
    Invariant t := by
  obtain ⟨hfetch, i, -, hexec⟩ := opStep_next h
  exact execOn_keeps_invariant hinv hfetch hexec

/-- Settles O45: a STEP is STEP on the next free draw, and that keeps the three parts of the invariant. -/
theorem stepKeepsInvariant : Obligations.StepKeepsInvariant := by
  intro s t hinv h
  rw [step_eq_opStep] at h
  exact opStep_keeps_invariant hinv h

theorem opInitialize_invariant (font : Font) (s : State) : Invariant (opInitialize font s) := by
  refine ⟨Memory.wf_writeBlock Memory.wf_nil ?font, ?pc, ?stack⟩
  case font => rw [Vector.length_toList]; decide
  case pc => rw [opInitialize_pc]; decide
  case stack => intro j hj; exact absurd hj (Nat.not_lt_zero _)

theorem opLoadProgram_tooLarge {bytes : List Byte} (h : 3584 < bytes.length) (s : State) :
    opLoadProgram bytes s = .fault .programTooLarge :=
  if_pos h

theorem opLoadProgram_keeps_invariant {bytes : List Byte} {s t : State} (hinv : Invariant s)
    (h : opLoadProgram bytes s = .next t) : Invariant t := by
  rcases Nat.lt_or_ge 3584 bytes.length with hlong | hfits
  · rw [opLoadProgram_tooLarge hlong] at h; cases h
  · rw [opLoadProgram_fits hfits] at h
    cases h
    obtain ⟨hwf, hpc, hret⟩ := hinv
    exact ⟨Memory.wf_writeBlock hwf (by omega), hpc, hret⟩

theorem settle_keeps_invariant {s : State} {r : Result} (hs : Invariant s) (hr : ∀ t, r = .next t → Invariant t) :
    Invariant (settle s r).2 := by
  cases r with
  | next t => exact hr t rfl
  | fault e => exact hs
  | refused e => exact hs

theorem apply_keeps_invariant (op : HostOp) {s : State} (hinv : Invariant s) : Invariant (op.apply s).2 := by
  cases op with
  | init font => exact opInitialize_invariant font s
  | loadProgram bytes => exact settle_keeps_invariant hinv fun _ => opLoadProgram_keeps_invariant hinv
  | step d => exact settle_keeps_invariant hinv fun _ => opStep_keeps_invariant hinv
  | setKey | tick => exact hinv
  | getKey | getDisplay | getRegisters | getSound => exact hinv

theorem runOps_keeps_invariant (ops : List HostOp) {s : State} (hinv : Invariant s) : Invariant (runOps ops s) := by
  induction ops generalizing s with
  | nil => exact hinv
  | cons op ops ih => exact ih (apply_keeps_invariant op hinv)

/-- Settles O46: INITIALIZE begins the invariant, and every host operation keeps it. -/
theorem everyHostRunKeepsInvariant : Obligations.EveryHostRunKeepsInvariant := fun font s ops =>
  runOps_keeps_invariant ops (opInitialize_invariant font s)

/-- Settles O44: nothing is stacked after reset, and memory lists nothing. -/
theorem resetMeetsInvariant : Obligations.ResetMeetsInvariant :=
  ⟨Memory.wf_nil, by decide, fun _ hj => absurd hj (Nat.not_lt_zero _)⟩

end Sys2Proof.Machine
end

section
/-! The call stack (41_flow.md R91, R93): what `CALL` pushes is what the next `RET` pops. -/

namespace Sys2Proof.Machine

/-! ### The two instructions -/

theorem exec_call (nnn : Addr12) (s : State) :
    exec (.call nnn) s = s.push (s.pc + 2) fun t => .next (t.jump (zextAddr nnn)) := rfl

theorem exec_ret (s : State) : exec .ret s = s.pop fun a t => .next (t.jump a) := rfl

theorem exec_call_of_room {s : State} (h : s.sp.val < 16) (nnn : Addr12) :
    exec (.call nnn) s = .next ((s.pushed (s.pc + 2) h).jump (zextAddr nnn)) := by
  rw [exec_call, State.push_ok h]

theorem exec_call_of_full {s : State} (h : s.sp.val = 16) (nnn : Addr12) :
    exec (.call nnn) s = .fault .stackOverflow := by
  rw [exec_call, State.push_full h]

theorem exec_ret_of_used {s : State} (h : 0 < s.sp.val) :
    exec .ret s = .next (s.popped.jump (s.stack[s.sp.val - 1]'(by omega))) := by
  rw [exec_ret, State.pop_ok h]

theorem exec_ret_of_empty {s : State} (h : s.sp.val = 0) : exec .ret s = .fault .stackUnderflow := by
  rw [exec_ret, State.pop_empty h]

/-! ### The stack after a push -/

theorem State.getElem_pushed (s : State) (a : Word) (h : s.sp.val < 16) (j : Fin 16) :
    (s.pushed a h).stack[j] = if j.val = s.sp.val then a else s.stack[j] := by
  simp only [State.pushed, Fin.getElem_fin, Vector.getElem_set, eq_comm]

/-! ### The obligations -/

/-- Settles O13: a push writes one entry and the number in use, and the jump then writes `PC` alone. -/
theorem callStacksReturnAddress : Obligations.CallStacksReturnAddress := by
  intro nnn s
  refine ⟨fun hfull => exec_call_of_full hfull nnn, fun hroom => ?room⟩
  case room =>
    exact ⟨_, _, _, exec_call_of_room hroom nnn, rfl, zextAddr_toNat nnn, State.getElem_pushed s (s.pc + 2) hroom⟩

/-- Settles O14: a pop writes the number in use alone, and the jump goes to the entry it takes out of use. -/
theorem retGoesToStackedAddress : Obligations.RetGoesToStackedAddress := by
  intro s
  refine ⟨exec_ret_of_empty, fun j hj => ⟨⟨s.sp.val - 1, by omega⟩, ?sp, ?state⟩⟩
  case sp => show s.sp.val - 1 = j.val; omega
  case state =>
    have htop : s.stack[s.sp.val - 1]'(by omega) = s.stack[j] := by
      simp only [Fin.getElem_fin, show s.sp.val - 1 = j.val by omega]
    rw [exec_ret_of_used (by omega), htop]
    rfl

/-- Settles O15: the entry that `RET` pops is the one `CALL` pushed, and those below it were left alone. -/
theorem retUndoesCall : Obligations.RetUndoesCall := by
  intro nnn s t u h hstack hsp
  obtain ⟨hroom, rfl⟩ := execCall_next h
  have hdepth : u.sp.val = s.sp.val + 1 := congrArg Fin.val hsp
  have hentry (j : Fin 16) : u.stack[j] = if j.val = s.sp.val then s.pc + 2 else s.stack[j] := by
    rw [hstack]; exact State.getElem_pushed s (s.pc + 2) hroom j
  refine ⟨_, exec_ret_of_used (by omega), ?pc, ?sp, ?entries⟩
  case pc =>
    have htop : u.stack[u.sp.val - 1]'(by omega) = u.stack[(⟨s.sp.val, hroom⟩ : Fin 16)] := by
      simp only [Fin.getElem_fin, show u.sp.val - 1 = s.sp.val by omega]
    rw [State.jump_pc, htop, hentry, if_pos rfl]
  case sp =>
    apply Fin.ext
    show u.sp.val - 1 = s.sp.val
    omega
  case entries =>
    intro j hj
    show u.stack[j] = s.stack[j]
    rw [hentry, if_neg (by omega)]

end Sys2Proof.Machine
end

section
/-! Shifts and random (43_alu.md R108, R110, R111). -/

namespace Sys2Proof.Machine

@[simp] theorem exec_shr (x : Reg) (s : State) :
    exec (.shr x) s = .next (s.setResultFlag x (s.reg x >>> 1) (shiftedOutRight (s.reg x))).next := rfl

@[simp] theorem exec_shl (x : Reg) (s : State) :
    exec (.shl x) s = .next (s.setResultFlag x (s.reg x <<< 1) (shiftedOutLeft (s.reg x))).next := rfl

theorem shiftedOutRight_toNat (a : Byte) : (shiftedOutRight a).toNat = a.toNat % 2 := by
  rw [shiftedOutRight, flagByte_toNat, BitVec.getLsbD, Nat.toNat_testBit, pow_zero, Nat.div_one]

theorem shiftedOutLeft_toNat (a : Byte) : (shiftedOutLeft a).toNat = a.toNat / 128 := by
  have ha := a.isLt
  rw [shiftedOutLeft, flagByte_toNat, BitVec.getLsbD, Nat.toNat_testBit]
  omega

theorem shiftRight_one_toNat (a : Byte) : (a >>> 1).toNat = a.toNat / 2 := by
  rw [BitVec.toNat_ushiftRight, Nat.shiftRight_eq_div_pow, pow_one]

theorem shiftLeft_one_toNat (a : Byte) : (a <<< 1).toNat = 2 * a.toNat % 256 := by
  rw [BitVec.toNat_shiftLeft, Nat.shiftLeft_eq]
  omega

/-- Settles O21: half and lowest bit, double and highest bit, each computed from the old register. -/
theorem shiftsSetBitShiftedOut : Obligations.ShiftsSetBitShiftedOut := by
  intro x s
  exact ⟨⟨_, _, shiftRight_one_toNat _, shiftedOutRight_toNat _, writesRegAndFlag_of_exec (exec_shr x s)⟩,
    ⟨_, _, shiftLeft_one_toNat _, shiftedOutLeft_toNat _, writesRegAndFlag_of_exec (exec_shl x s)⟩⟩

/-- Settles O22: one register write of the masked draw, and the machine's own meaning is that on the free draw. -/
theorem rndMasksTheDraw : Obligations.RndMasksTheDraw := by
  intro x kk s
  refine ⟨fun d => ⟨(s.setReg x (d &&& kk)).v, execOn_rnd d x kk s, fun r => ?reg⟩, exec_eq_execOn _ s⟩
  case reg => exact State.reg_setReg s x r (d &&& kk)

end Sys2Proof.Machine
end

section
/-! Glyph addresses, keys and timers (44_index_memory.md R122, 46_keys_timers.md R140 to R145). -/

namespace Sys2Proof.Machine

/-! ### Glyphs and timers -/

@[simp] theorem exec_ldF (x : Reg) (s : State) : exec (.ldF x) s = .next (s.setI (glyphAddr (s.reg x))).next := rfl

@[simp] theorem exec_ldVxDt (x : Reg) (s : State) : exec (.ldVxDt x) s = .next (s.setReg x s.dt).next := rfl

@[simp] theorem exec_ldDtVx (x : Reg) (s : State) : exec (.ldDtVx x) s = .next (s.setDt (s.reg x)).next := rfl

@[simp] theorem exec_ldStVx (x : Reg) (s : State) : exec (.ldStVx x) s = .next (s.setSt (s.reg x)).next := rfl

/-- Settles O24: five times a byte needs no mask and does not wrap. -/
theorem ldFPointsAtGlyph : Obligations.LdFPointsAtGlyph := by
  intro x s
  refine ⟨glyphAddr (s.reg x), glyphAddr_toNat _, ?state⟩
  case state => rw [exec_ldF, State.setI_next_eq]

/-- Settles O35: one write each, of a register or of a timer, and the advance. -/
theorem timerMoves : Obligations.TimerMoves := by
  intro x s
  exact ⟨writesReg_of_exec (exec_ldVxDt x s), exec_ldDtVx x s, exec_ldStVx x s⟩

/-! ### Keys -/

theorem exec_skp (x : Reg) (s : State) :
    exec (.skp x) s = withKey (s.reg x) fun k => .next (s.skipIf (s.pressed k)) := rfl

theorem exec_sknp (x : Reg) (s : State) :
    exec (.sknp x) s = withKey (s.reg x) fun k => .next (s.skipIf (!s.pressed k)) := rfl

theorem withKey_of_val_eq {v : Byte} {k : Reg} (h : k.val = v.toNat) (ok : Reg → Result) : withKey v ok = ok k := by
  have hv : v.toNat < 16 := by omega
  rw [withKey_ok hv, show (⟨v.toNat, hv⟩ : Reg) = k from Fin.ext h.symm]

theorem State.skipIf_not (s : State) (c : Bool) : s.skipIf (!c) = s.jump (if c then s.pc + 2 else s.pc + 4) := by
  cases c with
  | true => rfl
  | false => rfl

/-- Settles O33: a named key's level chooses the jump, and a value above 15 names none. -/
theorem keySkips : Obligations.KeySkips := by
  intro x s
  rw [exec_skp, exec_sknp]
  refine ⟨fun k hk => ⟨?skp, ?sknp⟩, fun hbad => ⟨withKey_raises hbad _, withKey_raises hbad _⟩⟩
  case skp => rw [withKey_of_val_eq hk, State.skipIf_eq_jump]; rfl
  case sknp => rw [withKey_of_val_eq hk, State.skipIf_not]; rfl

/-- The least pressed key is the one the search finds. -/
theorem State.leastKey_eq_some {s : State} {k : Reg} (hk : s.pressed k = true)
    (hleast : ∀ j : Reg, j < k → s.pressed j = false) : s.leastKey = some k := by
  cases hfound : s.leastKey with
  | none => rw [State.leastKey_none.mp hfound k] at hk; cases hk
  | some k' =>
    obtain ⟨hk', hleast'⟩ := State.leastKey_some hfound
    rcases lt_trichotomy k k' with hlt | heq | hgt
    · rw [hleast' k hlt] at hk; cases hk
    · rw [heq]
    · rw [hleast k' hgt] at hk'; cases hk'

theorem exec_ldVxK_of_some {s : State} {k : Reg} (h : s.leastKey = some k) (x : Reg) :
    exec (.ldVxK x) s = .next (s.setReg x (keyByte k)).next := by
  show execLdVxK x s = _
  rw [execLdVxK, h]

/-- Settles O34: with every key up the search finds none, else it finds the least key, and that is loaded. -/
theorem keyWaitHoldsOrLoadsLeastKey : Obligations.KeyWaitHoldsOrLoadsLeastKey := by
  intro x s
  refine ⟨fun hup => exec_ldVxK_held hup x, fun k hk hleast => ⟨keyByte k, keyByte_toNat k, ?loads⟩⟩
  case loads => exact writesReg_of_exec (exec_ldVxK_of_some (State.leastKey_eq_some hk hleast) x)

end Sys2Proof.Machine
end

section
/-! Memory transfers (44_index_memory.md R123 to R126): each store is one block write at `I` and the load one block read
there, so each is settled by what the block reads as. -/

namespace Sys2Proof.Machine

/-! ### The instructions -/

theorem exec_ldB (x : Reg) (s : State) : exec (.ldB x) s = s.storeAtI (decimalDigits (s.reg x)) := rfl

theorem exec_ldMemVx (x : Reg) (s : State) : exec (.ldMemVx x) s = s.storeAtI (s.regsUpTo x) := rfl

theorem State.storeAtI_raises {s : State} {bs : List Byte} (h0 : bs.length ≠ 0) (h : 0x1000 < s.i.toNat + bs.length) :
    s.storeAtI bs = .fault (.addressFault (max s.i.toNat 0x1000)) :=
  checkAccess_raises h0 h _

theorem exec_ldVxMem_inside {x : Reg} {s : State} (h : s.i.toNat + x.val ≤ 0xFFF) :
    exec (.ldVxMem x) s = .next (s.setRegs (loadRegs s.v 0 (s.mem.readBlock s.i.toNat (x.val + 1)))).next :=
  checkAccess_ok (.inr (by rw [State.base_eq]; omega)) _

theorem exec_ldVxMem_outside {x : Reg} {s : State} (h : 0xFFF < s.i.toNat + x.val) :
    exec (.ldVxMem x) s = .fault (.addressFault (max s.i.toNat 0x1000)) :=
  checkAccess_raises (Nat.succ_ne_zero _) (by rw [State.base_eq]; omega) _

/-! ### What a stored block reads as -/

/-- The digits make the number again, and the lower two are digits. -/
theorem decimalDigits_value (v : Byte) :
    100 * (decimalDigits v)[0].toNat + 10 * (decimalDigits v)[1].toNat + (decimalDigits v)[2].toNat = v.toNat ∧
      (decimalDigits v)[1].toNat ≤ 9 ∧ (decimalDigits v)[2].toNat ≤ 9 := by
  have hv := v.isLt
  have hhundreds : (decimalDigits v)[0].toNat = v.toNat / 100 := by
    show (BitVec.ofNat 8 (v.toNat / 100)).toNat = _
    rw [BitVec.toNat_ofNat]; omega
  have htens : (decimalDigits v)[1].toNat = v.toNat / 10 % 10 := by
    show (BitVec.ofNat 8 (v.toNat / 10 % 10)).toNat = _
    rw [BitVec.toNat_ofNat]; omega
  have hones : (decimalDigits v)[2].toNat = v.toNat % 10 := by
    show (BitVec.ofNat 8 (v.toNat % 10)).toNat = _
    rw [BitVec.toNat_ofNat]; omega
  omega

/-- Where `LD [I],Vx` stored, memory reads as the registers. -/
theorem read_storedRegs {s : State} {x r : Reg} (hwf : s.mem.wf = true) (hin : s.i.toNat + (x.val + 1) ≤ 0x1000)
    (hr : r ≤ x) : (s.mem.writeBlock s.i.toNat (s.regsUpTo x)).read (s.i.toNat + r.val) = s.reg r := by
  have hlen : r.val < (s.regsUpTo x).length := by
    rw [State.regsUpTo_length]; rw [Fin.le_def] at hr; omega
  rw [Memory.read_writeBlock_inside hwf (by rw [State.regsUpTo_length]; omega) hlen, State.getElem_regsUpTo]

/-! ### The obligations -/

/-- Settles O25: the block stored holds the three digits, whose values make the register's. -/
theorem ldBStoresDecimalDigits : Obligations.LdBStoresDecimalDigits := by
  intro x s hwf
  rw [exec_ldB]
  refine ⟨fun hin => ?inside, fun hout => ?outside⟩
  case outside =>
    have hlen := decimalDigits_length (s.reg x)
    exact State.storeAtI_raises (by omega) (by omega)
  case inside =>
    have hfits : s.i.toNat + (decimalDigits (s.reg x)).length ≤ 0x1000 := by rw [decimalDigits_length]; omega
    obtain ⟨hsum, htens, hones⟩ := decimalDigits_value (s.reg x)
    have hread {k : Nat} (hk : k < 3) := Memory.read_writeBlock_inside hwf hfits (k := k) hk
    have hread0 := hread (k := 0) (by decide)
    rw [Nat.add_zero] at hread0
    refine ⟨s.mem.writeBlock s.i.toNat (decimalDigits (s.reg x)), State.storeAtI_ok hfits, ?sum, ?tens, ?ones,
      fun a ha => ?frame⟩
    case sum => rw [hread0, hread (k := 1) (by decide), hread (k := 2) (by decide), hsum]
    case tens => rw [hread (k := 1) (by decide)]; exact htens
    case ones => rw [hread (k := 2) (by decide)]; exact hones
    case frame => exact Memory.read_writeBlock_outside ha

/-- Settles O26: the block stored holds the registers up to `x`. -/
theorem ldMemVxStoresRegisters : Obligations.LdMemVxStoresRegisters := by
  intro x s hwf
  rw [exec_ldMemVx]
  refine ⟨fun hin => ?inside, fun hout => ?outside⟩
  case outside =>
    have hlen := State.regsUpTo_length s x
    exact State.storeAtI_raises (by omega) (by omega)
  case inside =>
    have hfits : s.i.toNat + (s.regsUpTo x).length ≤ 0x1000 := by rw [State.regsUpTo_length]; omega
    refine ⟨_, State.storeAtI_ok hfits, fun r hr => ?stored, fun a ha => ?frame⟩
    case stored => exact read_storedRegs hwf (by omega) hr
    case frame => exact Memory.read_writeBlock_outside (by rw [State.regsUpTo_length]; exact ha)

/-- Settles O27: the block read is loaded into the registers from `V[0]` up, as far as it goes. -/
theorem ldVxMemLoadsRegisters : Obligations.LdVxMemLoadsRegisters := by
  intro x s
  refine ⟨fun hin => ⟨_, exec_ldVxMem_inside hin, fun r => ?reg⟩, exec_ldVxMem_outside⟩
  case reg =>
    have hle : r.val < x.val + 1 ↔ r ≤ x := by rw [Fin.le_def, Nat.lt_succ_iff]
    rw [State.getElem_v, State.reg_setRegs, getElem_loadRegs_readBlock, if_congr hle rfl rfl]
    rfl

/-- Settles O28: the load reads the block that the store wrote. -/
theorem storedRegistersLoadBack : Obligations.StoredRegistersLoadBack := by
  intro x s t u hwf h hmem hi
  obtain ⟨hin, rfl⟩ := execLdMemVx_next h
  have hi' : u.i = s.i := hi
  have hmem' : u.mem = s.mem.writeBlock s.i.toNat (s.regsUpTo x) := hmem
  refine ⟨_, exec_ldVxMem_inside (by rw [hi']; omega), fun r hr => ?reg⟩
  case reg =>
    have hlt : r.val < x.val + 1 := Nat.lt_succ_of_le hr
    rw [State.next_eq_jump, State.reg_jump, State.reg_setRegs, getElem_loadRegs_readBlock, if_pos hlt, hi', hmem',
      read_storedRegs hwf hin hr]

/-- Settles O29: the word at `I` is made of the two registers stored there, so a fetch there reads it. -/
theorem storedBytesAreFetched : Obligations.StoredBytesAreFetched := by
  intro x s t op i hwf hx h hop hi
  obtain ⟨hin, rfl⟩ := execLdMemVx_next h
  have hhigh := read_storedRegs (r := 0) hwf hin (Fin.zero_le x)
  have hlow := read_storedRegs (r := 1) hwf hin (Fin.le_def.mpr hx)
  refine step_decoded (by show s.i.toNat ≤ 0xFFE; omega) ?word hi
  case word =>
    show op.toNat = ((s.mem.writeBlock s.i.toNat (s.regsUpTo x)).read s.i.toNat).toNat * 256 +
      ((s.mem.writeBlock s.i.toNat (s.regsUpTo x)).read (s.i.toNat + 1)).toNat
    rw [hop, ← hhigh, ← hlow]
    rfl

/-! ### Canonical memories -/

/-- Two canonical lists that read alike begin with the same cell, since a listed byte is none that the address would read
as by itself, and their rests read alike. -/
theorem Memory.eq_of_read_eq {m m' : Memory} : ∀ {lo : Nat}, Memory.wfFrom lo m = true → Memory.wfFrom lo m' = true →
    (∀ a, m.read a = m'.read a) → m = m' := by
  induction m generalizing m' with
  | nil =>
    intro lo _ hwf' hread
    cases m' with
    | nil => rfl
    | cons c' m' =>
      obtain ⟨k', b'⟩ := c'
      obtain ⟨-, -, hb', -⟩ := (Memory.wfFrom_cons ..).mp hwf'
      have hk := hread k'
      rw [Memory.read_nil, Memory.read_cons, if_pos rfl] at hk
      exact absurd hk.symm hb'
  | cons c m ih =>
    obtain ⟨k, b⟩ := c
    intro lo hwf hwf' hread
    obtain ⟨hlo, hk, hb, hm⟩ := (Memory.wfFrom_cons ..).mp hwf
    cases m' with
    | nil =>
      have hat := hread k
      rw [Memory.read_nil, Memory.read_cons, if_pos rfl] at hat
      exact absurd hat hb
    | cons c' m' =>
      obtain ⟨k', b'⟩ := c'
      obtain ⟨hlo', hk', hb', hm'⟩ := (Memory.wfFrom_cons ..).mp hwf'
      rcases lt_trichotomy k k' with hlt | rfl | hgt
      · have hat := hread k
        rw [Memory.read_cons, if_pos rfl, Memory.read_cons, if_neg (by omega), Memory.read_below hm' (by omega)] at hat
        exact absurd hat hb
      · have hat := hread k
        rw [Memory.read_cons, if_pos rfl, Memory.read_cons, if_pos rfl] at hat
        have hrest : ∀ a, Memory.read m a = Memory.read m' a := by
          intro a
          rcases Nat.lt_or_ge k a with ha | ha
          · have := hread a
            rwa [Memory.read_cons, if_neg (by omega), Memory.read_cons, if_neg (by omega)] at this
          · rw [Memory.read_below hm (by omega), Memory.read_below hm' (by omega)]
        rw [hat, ih hm hm' hrest]
      · have hat := hread k'
        rw [Memory.read_cons, if_neg (by omega), Memory.read_cons, if_pos rfl, Memory.read_below hm (by omega)] at hat
        exact absurd hat.symm hb'

/-- Settles O47: a canonical list is determined by what it reads as. -/
theorem canonicalMemoriesThatReadAlikeAreEqual : Obligations.CanonicalMemoriesThatReadAlikeAreEqual :=
  fun _ _ hwf hwf' hread => Memory.eq_of_read_eq hwf hwf' hread

end Sys2Proof.Machine
end

section
/-! Drawing (45_display.md R131 to R134): `DRW` is one write of the display and one of VF, so it is settled by the cells
and the collision of the sprite drawn. -/

namespace Sys2Proof.Machine

/-! ### The instruction -/

theorem exec_drw_inside {x y : Reg} {n : Fin 16} {s : State} (h : n.val = 0 ∨ s.i.toNat + n.val ≤ 0x1000) :
    exec (.drw x y n) s =
      .next ((s.setDisp (s.drawn x y n.val).1).setReg 15 (flagByte (s.drawn x y n.val).2)).next :=
  checkAccess_ok h _

theorem exec_drw_outside {x y : Reg} {n : Fin 16} {s : State} (h : 1 ≤ n.val ∧ 0xFFF < s.i.toNat + n.val - 1) :
    exec (.drw x y n) s = .fault (.addressFault (max s.i.toNat 0x1000)) :=
  checkAccess_raises (by omega) (by rw [State.base_eq]; omega) _

/-! ### The obligations -/

/-- Settles O31: the cells and the collision of the sprite drawn, and a write of VF leaves every other register alone. -/
theorem drwIsExclusiveOrWithCollision : Obligations.DrwIsExclusiveOrWithCollision := by
  intro x y n s
  refine ⟨fun hin => ?inside, exec_drw_outside⟩
  case inside =>
    refine ⟨(s.setReg 15 (flagByte (s.drawn x y n.val).2)).v, (s.drawn x y n.val).1, exec_drw_inside (by omega),
      cell_drawn s x y n, ?flag, fun r hr => ?frame⟩
    case flag =>
      rw [State.getElem_v, State.reg_setReg, if_pos rfl]
      split
      · next hhit => exact flagByte_eq_one.mpr ((hit_drawn s x y n).mpr hhit)
      · next hmiss => rw [Bool.eq_false_iff.mpr fun h => hmiss ((hit_drawn s x y n).mp h)]; rfl
    case frame => rw [State.getElem_v, State.reg_setReg, if_neg hr, State.getElem_v]

/-- The bit of a sprite on a cell depends on the coordinates, the memory and `I` alone. -/
theorem spriteBit_congr {s u : State} {x y x' y' : Reg} (hmem : u.mem = s.mem) (hi : u.i = s.i)
    (hcol : u.column x' = s.column x) (hrow : u.row y' = s.row y) (n : Nat) (px : Fin 64) (py : Fin 32) :
    spriteBit u x' y' n px py = spriteBit s x y n px py := by
  simp only [spriteBit, State.byteAt_eq, hmem, hi, hcol, hrow]

/-- Settles O32: the second exclusive-or undoes the first, and a lit cell that the first draw's bits reach is one that
the first draw lit. -/
theorem drawingTwiceRestoresDisplay : Obligations.DrawingTwiceRestoresDisplay := by
  intro x y x' y' n s t u h hdisp hmem hi hcol hrow
  obtain ⟨hin, rfl⟩ := execDrw_next h
  have hdisp' : u.disp = (s.drawn x y n.val).1 := hdisp
  have hmem' : u.mem = s.mem := hmem
  have hi' : u.i = s.i := hi
  have hbit (px : Fin 64) (py : Fin 32) : spriteBit u x' y' n.val px py = spriteBit s x y n.val px py :=
    spriteBit_congr hmem' hi' hcol hrow n.val px py
  have hfirst (px : Fin 64) (py : Fin 32) :
      cell (s.drawn x y n.val).1 px py = (cell s.disp px py ^^ spriteBit s x y n.val px py) := cell_drawn s x y n px py
  have hdisp' : u.disp = (s.drawn x y n.val).1 := hdisp
  have hi' : u.i = s.i := hi
  refine ⟨_, exec_drw_inside (by rw [hi']; exact hin), ?restored, ?collision⟩
  case restored =>
    apply display_ext
    intro px py
    show cell (u.drawn x' y' n.val).1 px py = _
    rw [cell_drawn, hdisp', hfirst, hbit, Bool.xor_assoc, Bool.xor_self, Bool.xor_false]
  case collision =>
    have hlit (px : Fin 64) (py : Fin 32) :
        (cell u.disp px py = true ∧ spriteBit u x' y' n.val px py = true) ↔
          (cell s.disp px py = false ∧ cell (s.drawn x y n.val).1 px py = true) := by
      rw [hdisp', hbit, hfirst]
      cases cell s.disp px py <;> cases spriteBit s x y n.val px py <;> decide
    rw [State.next_eq_jump, State.reg_jump, State.reg_setReg, if_pos rfl, flagByte_eq_one, hit_drawn]
    simp only [hlit]
    rfl

end Sys2Proof.Machine
end

section
/-! The host operations that write or read whole pieces of state (47_host_operations.md R151, R154 to R157,
70_reset_and_hazards.md R180 to R182, 10_state.md section 8). -/

namespace Sys2Proof.Machine

/-! ### Reset and INITIALIZE -/

theorem Memory.unlisted_font (a : Fin 80) : Memory.unlisted a.val = Config.font[a] := dif_pos a.isLt

theorem Memory.unlisted_above {a : Nat} (h : 80 ≤ a) : Memory.unlisted a = 0 := dif_neg (Nat.not_lt.mpr h)

/-- Settles O50: every vector is filled with one value, and memory lists nothing. -/
theorem resetValues : Obligations.ResetValues := by
  refine ⟨fun r => ?reg, rfl, rfl, rfl, fun j => ?stack, cell_clear, rfl, rfl, fun k => ?key, Memory.unlisted_font,
    fun a ha => Memory.unlisted_above ha⟩
  case reg => exact Vector.getElem_replicate _
  case stack => exact Vector.getElem_replicate _
  case key => exact Vector.getElem_replicate _

/-- Settles O51: the font is one block written into memory that lists nothing. -/
theorem initializeInstallsAnyFont : Obligations.InitializeInstallsAnyFont := by
  intro font s
  have hlen : font.toList.length = 80 := Vector.length_toList
  have hfits : 0 + font.toList.length ≤ 0x1000 := by omega
  refine ⟨_, rfl, Memory.wf_writeBlock Memory.wf_nil hfits, fun a => ?font, fun a ha => ?above⟩
  case font =>
    have hread := Memory.read_writeBlock_inside Memory.wf_nil hfits (k := a.val) (by omega)
    rw [Nat.zero_add] at hread
    rw [hread, Vector.getElem_toList]
    rfl
  case above => rw [Memory.read_writeBlock_outside (by omega), Memory.read_nil, Memory.unlisted_above ha]

/-! ### LOAD_PROGRAM -/

/-- Settles O53: the program is one block written at 0x200. -/
theorem loadProgramCopiesBytes : Obligations.LoadProgramCopiesBytes := by
  intro bytes s hwf
  refine ⟨fun hfits => ⟨_, opLoadProgram_fits hfits s, fun k hk => ?copied, fun a ha => ?frame⟩,
    fun hlong => opLoadProgram_tooLarge hlong s⟩
  case copied => exact Memory.read_writeBlock_inside hwf (by omega) hk
  case frame => exact Memory.read_writeBlock_outside ha

/-! ### TICK and the read views -/

/-- Settles O55: each timer counts down by itself. -/
theorem tickCountsBothTimers : Obligations.TickCountsBothTimers := by
  intro s
  exact ⟨countDown s.dt, countDown s.st, rfl, countDown_toNat s.dt, countDown_toNat s.st⟩

/-- The index of a cell gives back its column and its row. -/
theorem opGetDisplay_getElem? (s : State) (px : Fin 64) (py : Fin 32) :
    (opGetDisplay s)[py.val * 64 + px.val]? = some (cell s.disp px py) := by
  have hindex : py.val * 64 + px.val < 2048 := by omega
  have hcol : Fin.ofNat 64 (py.val * 64 + px.val) = px := by
    apply Fin.ext; show (py.val * 64 + px.val) % 64 = px.val; omega
  have hrow : Fin.ofNat 32 ((py.val * 64 + px.val) / 64) = py := by
    apply Fin.ext; show (py.val * 64 + px.val) / 64 % 32 = py.val; omega
  rw [opGetDisplay, List.getElem?_map, List.getElem?_range hindex, Option.map_some, hcol, hrow]

theorem soundActive_eq (s : State) : soundActive s = decide (s.st ≠ 0) := by
  rw [soundActive, bne, beq_eq_decide, decide_not]

/-- Settles O56: the cells come in the order of their index, and `sound_active` is whether `ST` is not zero. -/
theorem readViews : Obligations.ReadViews := by
  intro s
  refine ⟨⟨opGetDisplay s, rfl, ?length, opGetDisplay_getElem? s⟩, rfl, ?sound⟩
  case length => rw [opGetDisplay, List.length_map, List.length_range]
  case sound => rw [← soundActive_eq]; rfl

/-! ### Before the first INITIALIZE -/

/-- Settles O59: of the nine operations, INITIALIZE alone has a meaning there. -/
theorem nothingBeforeInitialize : Obligations.NothingBeforeInitialize := by
  refine ⟨fun op hop => ?refused, fun font s => ⟨rfl, rfl⟩⟩
  case refused =>
    cases op with
    | init font => exact absurd rfl (hop font)
    | _ => rfl

end Sys2Proof.Machine
end
